-- ==== Sys2Proof/Word.lean ====
section
/-! DEFINITION. The bit vectors of the block's ports, the two decoder widths' field type, and text for the host's side. -/

namespace Sys2Proof

/-- The operand port `x` and the 64-bit response fields (10_state.md R16, R17). -/
abbrev Word64 := BitVec 64

/-- One request word `REQ[65:0]` (30_encoding.md R38). -/
abbrev ReqWord := BitVec 66

/-- A single-precision pattern (30_encoding.md R42). -/
abbrev Pattern32 := BitVec 32

/-- A double-precision pattern (30_encoding.md R43). -/
abbrev Pattern64 := BitVec 64

/-- A mantissa field held at the wider of the two widths (30_encoding.md R44, R46: `mant`, 52 bits). -/
abbrev Field52 := BitVec 52

/-- A text of the host or of a request script: its characters in order. -/
abbrev Text := List Char

end Sys2Proof
end

