-- ==== Sys2Proof/Config.lean ====
section
/-! DEFINITION. The parameters of 00_scope.md R8 (the fixed ones as numbers), the free values for what the spec leaves
unspecified, and the open parameters of the reference host (45_host_driver.md). -/

namespace Sys2Proof.Config

/-- W_S, the single mantissa width (00_scope.md R8). -/
abbrev wS : Nat := 23
/-- E_S, the single exponent field width (00_scope.md R8). -/
abbrev eS : Nat := 8
/-- BIAS_S (00_scope.md R8). -/
abbrev biasS : Nat := 127
/-- N_S, the single pattern width (00_scope.md R8). -/
abbrev nS : Nat := 32
/-- W_D, the double mantissa width (00_scope.md R8). -/
abbrev wD : Nat := 52
/-- E_D, the double exponent field width (00_scope.md R8). -/
abbrev eD : Nat := 11
/-- BIAS_D (00_scope.md R8). -/
abbrev biasD : Nat := 1023
/-- N_D, the double pattern width (00_scope.md R8). -/
abbrev nD : Nat := 64
/-- The exponent result width (00_scope.md R8; 92_eei_decisions.md D4). -/
abbrev expBits : Nat := 12
/-- HAS_U64 (00_scope.md R8, R7): the 64-bit datapath is always there, so DECOMP.D has no failure path (R79). -/
abbrev hasU64 : Bool := true

/-! ### Free values: the decoder's working values outside an operation

10_state.md R23: "Their content between operations is unspecified and no rule reads it"; 93_implementation_defined.md I6:
"any value". Each is an uninterpreted constant applied to the counter `State.freeCount` (log entry 3). -/

/-- The accumulator's content after the `n`-th event that leaves it unspecified (log entry 3). -/
opaque freeAcc : Nat → Rat
/-- The weight's content after the `n`-th such event (log entry 3). -/
opaque freeWt : Nat → Rat
/-- The shift register's content after the `n`-th such event (log entry 3). -/
opaque freeSh : Nat → BitVec 52
/-- The step counter's content after the `n`-th such event (log entry 3). -/
opaque freeStep : Nat → Nat

/-! ### Open parameters of the reference host (45_host_driver.md R82, R83; 92_eei_decisions.md D20, D21, D24) -/

/-- A number as the syntax of R83 spells it: sign, decimal or hex-float, the digits before and after the point, the
exponent (0 where none is written). -/
structure NumberLiteral where
  negative : Bool
  hex      : Bool
  whole    : Text
  fraction : Text
  exponent : Int
  deriving DecidableEq, Repr, Inhabited

/-- A literal converted to a pattern of width `n`, and whether it overflows the width (92_eei_decisions.md D20, D24). -/
structure Converted (n : Nat) where
  value    : BitVec n
  overflow : Bool
  deriving DecidableEq, Repr, Inhabited

/-- What a parse makes of a text that spells no number: how many characters it consumes, a pattern, and whether it signals
an error (DESIGN CHOICE, log entry 19). -/
structure NoNumber (n : Nat) where
  consumed : Nat
  pattern  : BitVec n
  signaled : Bool
  deriving DecidableEq, Repr, Inhabited

/-- What R83 leaves open of PARSE_S or PARSE_D: the conversion of a literal ("The source fixes syntax, not the conversion
algorithm", 92_eei_decisions.md D20), and the answer on a text outside the syntax (log entries 8, 19). -/
structure ParseParams (n : Nat) where
  convert  : NumberLiteral → Converted n
  noNumber : Text → NoNumber n
  deriving Inhabited

/-- PARSE_S beyond its syntax, open (45_host_driver.md R83, D20; log entry 8). -/
opaque parseS : ParseParams 32
/-- PARSE_D beyond its syntax, open (45_host_driver.md R83, D20; log entry 8). -/
opaque parseD : ParseParams 64
/-- USAGE_TEXT, open (45_host_driver.md R82, D21; log entry 8). -/
opaque usageText : Text
/-- PARSE_UNDERFLOW_IS_ERROR, open (92_eei_decisions.md D24; log entry 8). -/
opaque parseUnderflowIsError : Bool

end Sys2Proof.Config
end

