-- ==== Sys2Proof/Syntax.lean ====
section
/-! DEFINITION. The four operations (30_encoding.md R40), the request ports they arrive on (R38), and the two small
types the operation code is made of (R39). -/

namespace Sys2Proof

/-- The format bit F = `op[0]` read as a decoder width: 23 (single) or 52 (double). Another width cannot be written
(30_encoding.md R39; 40_mantissa_decoder.md R61: "refused at the type"). -/
inductive Width where
  | w23
  | w52
  deriving DecidableEq, Repr

/-- The width in bits, W. -/
def Width.bits : Width → Nat
  | .w23 => Config.wS
  | .w52 => Config.wD

/-- The kind bit K = `op[1]`: full decomposition, or the Mantissa Decoder alone (30_encoding.md R39). -/
inductive Kind where
  | decompose
  | decodeOnly
  deriving DecidableEq, Repr

/-- The request ports `op` and `x` (10_state.md R16; 30_encoding.md R38). -/
structure Request where
  op : BitVec 2
  x  : Word64
  deriving DecidableEq, Repr

/-- The four operations, one constructor per row of spec/opcode_table.json, each with its whole 64-bit operand: which
slice of it is read belongs to the operation's meaning (30_encoding.md R41, R45). -/
inductive Instr where
  /-- DECOMP.S (41_format_decomposer.md R74). -/
  | decompS (x : Word64)
  /-- DECOMP.D (41_format_decomposer.md R75). -/
  | decompD (x : Word64)
  /-- MDEC.23 (40_mantissa_decoder.md R62). -/
  | mdec23 (x : Word64)
  /-- MDEC.52 (40_mantissa_decoder.md R63). -/
  | mdec52 (x : Word64)
  deriving DecidableEq, Repr

/-- The operand an operation carries. -/
def Instr.x : Instr → Word64
  | .decompS x => x
  | .decompD x => x
  | .mdec23 x => x
  | .mdec52 x => x

/-- The decoder width of an operation, `W = (F = 0) ? 23 : 52` (30_encoding.md R39). -/
def Instr.width : Instr → Width
  | .decompS _ => .w23
  | .decompD _ => .w52
  | .mdec23 _ => .w23
  | .mdec52 _ => .w52

/-- The kind of an operation (30_encoding.md R39). -/
def Instr.kind : Instr → Kind
  | .decompS _ => .decompose
  | .decompD _ => .decompose
  | .mdec23 _ => .decodeOnly
  | .mdec52 _ => .decodeOnly

end Sys2Proof
end

