-- ==== Sys2Proof/WellFormed.lean ====
section
/-! DEFINITION. Well-formedness. Every operation with every operand is legal (30_encoding.md R50: "every value of `x` is a
legal operand"), so the check on `Instr` refuses nothing; what CAN be ill-formed is a number that is no request word
(R38: 66 bits) and a decoder width other than 23 and 52 (40_mantissa_decoder.md R61). -/

namespace Sys2Proof

/-- Legal as an operation: all of them are (30_encoding.md R50, R45: the block does not check the ignored bits). -/
def Instr.wellFormed : Instr → Bool
  | .decompS _ => true
  | .decompD _ => true
  | .mdec23 _ => true
  | .mdec52 _ => true

/-- A number is a request word when it fits 66 bits (30_encoding.md R38, R52: "Every request has the one length"). -/
def requestWordOk (w : Nat) : Bool := w < 2 ^ 66

/-- The well-formed decoder widths, "23 or 52 only" (40_mantissa_decoder.md R61); `none` refuses any other number. -/
def Width.ofNat? (n : Nat) : Option Width :=
  if n = Config.wS then some .w23 else if n = Config.wD then some .w52 else none

end Sys2Proof
end

