-- ==== Sys2Proof/Decode.lean ====
section
/-! DEFINITION. The decoder of request words, total on all 2^66 of them (30_encoding.md R50), the opcode table as rows,
and the encoder. -/

namespace Sys2Proof

/-- F = `op[0]` (30_encoding.md R39). -/
def opWidth (op : BitVec 2) : Width := if op.getLsbD 0 then .w52 else .w23

/-- K = `op[1]` (30_encoding.md R39). -/
def opKind (op : BitVec 2) : Kind := if op.getLsbD 1 then .decodeOnly else .decompose

/-- The operation a request asks for (30_encoding.md R40). -/
def decode (r : Request) : Instr :=
  match opKind r.op, opWidth r.op with
  | .decompose, .w23 => .decompS r.x
  | .decompose, .w52 => .decompD r.x
  | .decodeOnly, .w23 => .mdec23 r.x
  | .decodeOnly, .w52 => .mdec52 r.x

/-- `REQ.op = REQ[65:64]`, `REQ.x = REQ[63:0]` (30_encoding.md R38). -/
def Request.ofWord (w : ReqWord) : Request := ⟨w.extractLsb' 64 2, w.extractLsb' 0 64⟩

/-- `REQ = op ‖ x` (30_encoding.md R38). -/
def Request.toWord (r : Request) : ReqWord := (r.op ++ r.x).cast rfl

/-- The decoder on one 66-bit request word. -/
def decodeWord (w : ReqWord) : Instr := decode (Request.ofWord w)

/-- Why a number is not decoded. -/
inductive DecodeError where
  /-- It does not fit the one request length of 66 bits (30_encoding.md R38, R52). -/
  | widerThanARequest
  deriving DecidableEq, Repr

/-- The decoder on any number: a request word is decoded, a wider number is refused by name. -/
def decodeNat (w : Nat) : Except DecodeError Instr :=
  if requestWordOk w then .ok (decodeWord (BitVec.ofNat 66 w)) else .error .widerThanARequest

/-- The operation code of an operation (30_encoding.md R40). -/
def Instr.op : Instr → BitVec 2
  | .decompS _ => 0b00#2
  | .decompD _ => 0b01#2
  | .mdec23 _ => 0b10#2
  | .mdec52 _ => 0b11#2

/-- The request that asks for an operation. -/
def encode (i : Instr) : Request := ⟨i.op, i.x⟩

/-- The request word of an operation (30_encoding.md R38, R40). -/
def encodeWord (i : Instr) : ReqWord := (encode i).toWord

/-- A row of the opcode table: `REQ & mask = pattern` (30_encoding.md R40). -/
structure OpcodeRow where
  mnemonic : String
  mask     : ReqWord
  pattern  : ReqWord
  deriving DecidableEq, Repr

/-- The rows as spec/opcode_table.json and 30_encoding.md R40 write them. -/
def Instr.row : Instr → OpcodeRow
  | .decompS _ => ⟨"DECOMP.S", 0x30000000000000000#66, 0x00000000000000000#66⟩
  | .decompD _ => ⟨"DECOMP.D", 0x30000000000000000#66, 0x10000000000000000#66⟩
  | .mdec23 _ => ⟨"MDEC.23", 0x30000000000000000#66, 0x20000000000000000#66⟩
  | .mdec52 _ => ⟨"MDEC.52", 0x30000000000000000#66, 0x30000000000000000#66⟩

/-- A word is one of a row's words. -/
def OpcodeRow.fits (r : OpcodeRow) (w : ReqWord) : Bool := w &&& r.mask == r.pattern

/-- The word the host hands over as `nbits` bits of the number `w`: the bits above `nbits` are 0. -/
def tableWord (nbits w : Nat) : Nat := w % 2 ^ nbits

/-- The instruction this decoder reads from a table word (bit 0 the least significant bit of `REQ`). -/
def decodeTableWord (nbits w : Nat) : Option Instr :=
  match decodeNat (tableWord nbits w) with
  | .ok i => some i
  | .error _ => none

end Sys2Proof
end

