-- ==== Sys2Proof/Machine/State.lean ====
section
/-! DEFINITION. The state of the block (10_state.md R26, 70_reset_and_hazards.md R113), what its environment does next,
the reasons a step can stop, and the state after reset. -/

namespace Sys2Proof.Machine

/-- Why the machine faults. -/
inductive Fault where
  /-- Raised by the host's READ of the response ports while they hold no value, which is until the first operation after
  reset completes (10_state.md R25; 93_implementation_defined.md I7). No operation raises it. Safe: the model stops where
  a chip would show some bits. -/
  | responseNeverWritten
  deriving DecidableEq, Repr

/-- Why an instruction has no meaning. -/
inductive Refusal where
  /-- An instruction whose arm in Dispatch.lean has no meaning yet; no arm of this model answers with it. Safe. -/
  | notModelled (mnemonic : String)
  deriving DecidableEq, Repr

/-- A response, the five response ports written together (10_state.md R17; 30_encoding.md R46). -/
structure Response where
  raw  : BitVec 64
  sign : BitVec 1
  exp  : BitVec 12
  mant : BitVec 52
  sig  : BitVec 64
  deriving DecidableEq, Repr

/-- The five response ports by name (10_state.md R17). -/
inductive ResponsePort where
  | raw
  | sign
  | exp
  | mant
  | sig
  deriving DecidableEq, Repr

/-- The width of a response port (10_state.md R17). -/
def ResponsePort.width : ResponsePort → Nat
  | .raw => 64
  | .sign => 1
  | .exp => 12
  | .mant => 52
  | .sig => 64

/-- The decoder's working values (10_state.md R22): the accumulator and the weight are exact rationals, `sh` is the W-bit
shift register held at the wider width, `i` counts the bit steps done. -/
structure Decoder where
  acc : Rat
  wt  : Rat
  sh  : BitVec 52
  i   : Nat
  deriving DecidableEq, Repr

/-- What happens at the block's boundary next. `request`, `accept`, `read` and `reset` are the host's; `bitStep` is the
block's own (log entry 4). -/
inductive Event where
  /-- The host presents a request; the operation is performed whole in one step (10_state.md R23, 70 R119 allow it). -/
  | request (r : Request)
  /-- The host presents a request and the block reads it and starts: the same operation, seen from inside
  (10_state.md R16, R22). Its bit steps follow. -/
  | accept (r : Request)
  /-- The operation in progress makes one bit step of 40_mantissa_decoder.md R58, or, when all are done, delivers. -/
  | bitStep
  /-- The host reads the response ports (10_state.md R17, R25). -/
  | read
  /-- Reset (70_reset_and_hazards.md R112 to R114). -/
  | reset
  deriving DecidableEq, Repr

/-- The block and its environment. Plain data. -/
structure State where
  /-- The response ports: no value until the first operation after reset completes (10_state.md R25, R26). -/
  response  : Option Response
  /-- The operation in progress, with the request it read at its start; `none` is R26's "false". -/
  running   : Option Instr
  /-- The decoder's working values (10_state.md R22). -/
  decoder   : Decoder
  /-- The model's own: the environment's coming events, oldest first (log entry 4). -/
  events    : List Event
  /-- The model's own: how often the working values were left unspecified (log entry 3). -/
  freeCount : Nat
  deriving DecidableEq, Repr

/-- R26's "operation in progress" as the Bool it is. -/
def State.inProgress (s : State) : Bool := s.running.isSome

/-- The machine right after reset (70_reset_and_hazards.md R113). The decoder's working values are unspecified there; the
zeros are this model's DESIGN CHOICE (log entry 1), and no rule reads them. -/
def State.reset : State where
  response  := none
  running   := none
  decoder   := ⟨0, 0, 0#52, 0⟩
  events    := []
  freeCount := 0

end Sys2Proof.Machine
end

