-- ==== Sys2Proof/Machine/Operands.lean ====
section
/-! DEFINITION. Every operand form: the slice of `x` an operation reads (30_encoding.md R41; 20_memory.md R32) and the
fields of the two patterns (R42, R43). Each extraction `v.extractLsb' lo n` is the spec's `v[lo+n-1:lo]`. -/

namespace Sys2Proof.Machine

/-- DECOMP.S reads `P = x[31:0]` (30_encoding.md R41). -/
def singlePattern (x : Word64) : Pattern32 := x.extractLsb' 0 32

/-- DECOMP.D reads `P = x[63:0]`, all of it (30_encoding.md R41). -/
def doublePattern (x : Word64) : Pattern64 := x

/-- MDEC.23 reads `M = x[22:0]` (30_encoding.md R41, R44). -/
def operandField23 (x : Word64) : BitVec 23 := x.extractLsb' 0 23

/-- MDEC.52 reads `M = x[51:0]` (30_encoding.md R41, R44). -/
def operandField52 (x : Word64) : BitVec 52 := x.extractLsb' 0 52

/-- S = `P[31]` (30_encoding.md R42). -/
def singleSign (p : Pattern32) : BitVec 1 := p.extractLsb' 31 1

/-- E = `P[30:23]` (30_encoding.md R42). -/
def singleExpField (p : Pattern32) : BitVec 8 := p.extractLsb' 23 8

/-- M = `P[22:0]` (30_encoding.md R42). -/
def singleMantField (p : Pattern32) : BitVec 23 := p.extractLsb' 0 23

/-- S = `P[63]` (30_encoding.md R43). -/
def doubleSign (p : Pattern64) : BitVec 1 := p.extractLsb' 63 1

/-- E = `P[62:52]` (30_encoding.md R43). -/
def doubleExpField (p : Pattern64) : BitVec 11 := p.extractLsb' 52 11

/-- M = `P[51:0]` (30_encoding.md R43). -/
def doubleMantField (p : Pattern64) : BitVec 52 := p.extractLsb' 0 52

/-- The mantissa field an operation gives the decoder, zero-extended to 52 bits (41 R70, R71; 40 R62, R63). -/
def mantissaOf : Instr → Field52
  | .decompS x => (singleMantField (singlePattern x)).setWidth 52
  | .decompD x => doubleMantField (doublePattern x)
  | .mdec23 x => (operandField23 x).setWidth 52
  | .mdec52 x => operandField52 x

end Sys2Proof.Machine
end

