-- ==== Sys2Proof/Machine/Flags.lean ====
section
/-! DEFINITION. The block has no flags and no condition codes (10_state.md R19); the sign and the exponent are RESULT
FIELDS, and their computation is here (41_format_decomposer.md R68, R69). -/

namespace Sys2Proof.Machine

/-- `twos_12(i)` (00_scope.md R11; 30_encoding.md R47). -/
def twos12 (i : Int) : BitVec 12 := BitVec.ofInt 12 i

/-- `e = E - 127`, on integers (41_format_decomposer.md R69). -/
def singleExponent (p : Pattern32) : Int := ((singleExpField p).toNat : Int) - (Config.biasS : Int)

/-- `e = E - 1023`, on integers (41_format_decomposer.md R69). -/
def doubleExponent (p : Pattern64) : Int := ((doubleExpField p).toNat : Int) - (Config.biasD : Int)

/-- How a reader recovers the exponent: `sext` of the 12 bits (30_encoding.md R47). -/
def exponentOf (r : Response) : Int := r.exp.toInt

end Sys2Proof.Machine
end

