-- ==== Sys2Proof/Machine/MantissaDecoder.lean ====
section
/-! DEFINITION. The shared Mantissa Decoder (40_mantissa_decoder.md section 1): its value as an exact rational, the
binary64 pattern of a value in [1, 2), the pattern it delivers in one step, and its bit-serial reference algorithm. -/

namespace Sys2Proof.Machine

/-- `bit_i = m[w-1-i]`, the bit of weight `2^-(i+1)`, as a rational (40_mantissa_decoder.md R56, R57). -/
def mantBit (w : Width) (m : Nat) (i : Nat) : Rat := if m.testBit (w.bits - 1 - i) then 1 else 0

/-- `MantDec(m, w) = 1 + Σ_{i<w} bit_i · 2^-(i+1)`, exact (40_mantissa_decoder.md R56). -/
def mantDec (w : Width) (m : Nat) : Rat :=
  1 + ∑ i ∈ Finset.range w.bits, mantBit w m i * (1 / 2 ^ (i + 1))

/-- `B64(q)` for `q = 1 + f·2^-52`: sign 0, exponent field 0x3FF, mantissa field `f` (30_encoding.md R49). -/
def b64 (q : Rat) : BitVec 64 :=
  (0#1 ++ 1023#11 ++ BitVec.ofNat 52 ((q - 1) * 2 ^ 52).floor.toNat).cast rfl

/-- `m[w-1:0]`: the bits of `m` the decoder reads (40_mantissa_decoder.md R56). -/
def lowBits (w : Width) (m : Field52) : Field52 :=
  match w with
  | .w23 => (m.extractLsb' 0 23).setWidth 52
  | .w52 => m

/-- The delivered pattern in one step: `0x3FF0_0000_0000_0000 | (zext_64(m[w-1:0]) << (52 - w))`
(40_mantissa_decoder.md R60; R59 allows the one-step form). -/
def significandPattern (w : Width) (m : Field52) : BitVec 64 :=
  0x3FF0000000000000#64 ||| ((lowBits w m).setWidth 64 <<< (52 - w.bits))

/-! ### The reference algorithm (40_mantissa_decoder.md R58) -/

/-- `acc <- 1; wt <- 1/2; sh <- m[w-1:0]`, step counter 0 (40_mantissa_decoder.md R58; 10_state.md R23). -/
def Decoder.start (w : Width) (m : Field52) : Decoder := ⟨1, 1 / 2, lowBits w m, 0⟩

/-- One pass of the loop body (40_mantissa_decoder.md R58): look at `sh[w-1]`, add, halve, shift within W bits. -/
def Decoder.step (w : Width) (d : Decoder) : Decoder where
  acc := if d.sh.getLsbD (w.bits - 1) then d.acc + d.wt else d.acc
  wt  := d.wt / 2
  sh  := lowBits w (d.sh <<< 1)
  i   := d.i + 1

/-- `n` passes of the loop body. -/
def Decoder.steps (w : Width) : Nat → Decoder → Decoder
  | 0, d => d
  | n + 1, d => Decoder.steps w n (Decoder.step w d)

/-- The loop run to its end: exactly W passes (40_mantissa_decoder.md R58). -/
def Decoder.run (w : Width) (m : Field52) : Decoder := Decoder.steps w w.bits (Decoder.start w m)

end Sys2Proof.Machine
end

