-- ==== Sys2Proof/Machine/Ops.lean ====
section
/-! DEFINITION. The named operations over the block's state: delivering a response, reading the response ports, reset.
The block takes no exception, has no registers by number and no memory (60_exceptions.md R100 to R104; 10_state.md R15;
20_memory.md R28), so there is no exception entry, no return from one, and no load or store here. -/

namespace Sys2Proof.Machine

/-- The working values as the spec leaves them outside an operation: unspecified (10_state.md R23), so free. -/
def unspecifiedDecoder (n : Nat) : Decoder :=
  ⟨Config.freeAcc n, Config.freeWt n, Config.freeSh n, Config.freeStep n⟩

/-- An operation completes: all five response fields are written at once, nothing is in progress any more, and the
working values are unspecified from here on (10_state.md R17, R23, R25; 20_memory.md R32). -/
def State.deliver (r : Response) (s : State) : State :=
  { s with
    response  := some r
    running   := none
    decoder   := unspecifiedDecoder s.freeCount
    freeCount := s.freeCount + 1 }

/-- Reset: nothing in progress (an operation in progress is abandoned), no value on the response ports, the working
values unspecified (70_reset_and_hazards.md R112 to R114). What the host does next is not the block's state. -/
def State.resetBlock (s : State) : State :=
  { s with
    response  := none
    running   := none
    decoder   := unspecifiedDecoder s.freeCount
    freeCount := s.freeCount + 1 }

/-- The host reads the response ports: a fault while they hold no value (10_state.md R25). -/
def State.readResponse (s : State) : Except Fault Response :=
  match s.response with
  | some r => .ok r
  | none => .error .responseNeverWritten

/-- The bits one response port shows (10_state.md R17). -/
def Response.port (r : Response) : (p : ResponsePort) → BitVec p.width
  | .raw => r.raw
  | .sign => r.sign
  | .exp => r.exp
  | .mant => r.mant
  | .sig => r.sig

/-- The host reads one response port. -/
def State.readPort (s : State) (p : ResponsePort) : Except Fault (BitVec p.width) :=
  match s.response with
  | some r => .ok (r.port p)
  | none => .error .responseNeverWritten

/-- `RESP[192:0] = raw ‖ sign ‖ exp ‖ mant ‖ sig` (30_encoding.md R46). -/
def Response.pack (r : Response) : BitVec 193 := (r.raw ++ r.sign ++ r.exp ++ r.mant ++ r.sig).cast rfl

/-- The fields at their places in `RESP` (30_encoding.md R46). -/
def Response.unpack (w : BitVec 193) : Response where
  raw  := w.extractLsb' 129 64
  sign := w.extractLsb' 128 1
  exp  := w.extractLsb' 116 12
  mant := w.extractLsb' 64 52
  sig  := w.extractLsb' 0 64

end Sys2Proof.Machine
end

