-- ==== Sys2Proof/Machine/Decomp.lean ====
section
/-! DEFINITION. The Format Decomposer's operations, DECOMP.S and DECOMP.D (41_format_decomposer.md R74, R75). No pattern
is special: zeros, subnormals, infinities and NaNs go through the same formulas (R73). -/

namespace Sys2Proof.Machine

/-- DECOMP.S's response (41_format_decomposer.md R74). -/
def decompSResponse (x : Word64) : Response :=
  let p := singlePattern x
  let m := singleMantField p
  { raw  := p.setWidth 64
    sign := singleSign p
    exp  := twos12 (singleExponent p)
    mant := m.setWidth 52
    sig  := significandPattern .w23 (m.setWidth 52) }

/-- DECOMP.D's response (41_format_decomposer.md R75). -/
def decompDResponse (x : Word64) : Response :=
  let p := doublePattern x
  let m := doubleMantField p
  { raw  := p
    sign := doubleSign p
    exp  := twos12 (doubleExponent p)
    mant := m
    sig  := significandPattern .w52 m }

/-- DECOMP.S (41_format_decomposer.md R74). -/
def execDecompS (x : Word64) (s : State) : Host.Outcome State Fault Refusal :=
  .next (s.deliver (decompSResponse x))

/-- DECOMP.D (41_format_decomposer.md R75; it has no failure outcome, R79). -/
def execDecompD (x : Word64) (s : State) : Host.Outcome State Fault Refusal :=
  .next (s.deliver (decompDResponse x))

end Sys2Proof.Machine
end

