-- ==== Sys2Proof/Machine/Mdec.lean ====
section
/-! DEFINITION. The Mantissa Decoder's own operations, MDEC.23 and MDEC.52 (40_mantissa_decoder.md R62, R63). -/

namespace Sys2Proof.Machine

/-- MDEC.23's response (40_mantissa_decoder.md R62). -/
def mdec23Response (x : Word64) : Response :=
  let m := operandField23 x
  { raw  := m.setWidth 64
    sign := 0#1
    exp  := twos12 0
    mant := m.setWidth 52
    sig  := significandPattern .w23 (m.setWidth 52) }

/-- MDEC.52's response (40_mantissa_decoder.md R63). -/
def mdec52Response (x : Word64) : Response :=
  let m := operandField52 x
  { raw  := m.setWidth 64
    sign := 0#1
    exp  := twos12 0
    mant := m
    sig  := significandPattern .w52 m }

/-- MDEC.23 (40_mantissa_decoder.md R62). -/
def execMdec23 (x : Word64) (s : State) : Host.Outcome State Fault Refusal :=
  .next (s.deliver (mdec23Response x))

/-- MDEC.52 (40_mantissa_decoder.md R63). -/
def execMdec52 (x : Word64) (s : State) : Host.Outcome State Fault Refusal :=
  .next (s.deliver (mdec52Response x))

end Sys2Proof.Machine
end

