-- ==== Sys2Proof/Machine/Serial.lean ====
section
/-! DEFINITION. An operation seen from inside: it starts, makes its bit steps in the decoder's working values
(40_mantissa_decoder.md R58), and delivers. The significand it delivers is read from the accumulator. -/

namespace Sys2Proof.Machine

/-- The response of an operation, a function of its request alone (10_state.md R24). -/
def respond : Instr → Response
  | .decompS x => decompSResponse x
  | .decompD x => decompDResponse x
  | .mdec23 x => mdec23Response x
  | .mdec52 x => mdec52Response x

/-- The block reads a request and starts: the working values are initialised afresh (10_state.md R16, R23). -/
def State.acceptOp (i : Instr) (s : State) : State :=
  { s with
    running := some i
    decoder := Decoder.start i.width (mantissaOf i) }

/-- The response made from the working values: `sig` is `B64` of the accumulator, the other fields are extracted. -/
def serialResponse (i : Instr) (d : Decoder) : Response := { respond i with sig := b64 d.acc }

/-- The bit steps an operation in progress still has to make. -/
def bitsLeft (i : Instr) (d : Decoder) : Nat := i.width.bits - d.i

/-- The operation in progress makes one bit step, or delivers when all W are done (40_mantissa_decoder.md R58; 70 R119).
With nothing in progress nothing happens. -/
def State.bitStep (s : State) : State :=
  match s.running with
  | none => s
  | some i =>
    if s.decoder.i < i.width.bits then { s with decoder := Decoder.step i.width s.decoder }
    else s.deliver (serialResponse i s.decoder)

/-- The operation in progress runs to its completion, from wherever its working values stand (70 R117, R119). With
nothing in progress nothing happens. -/
def State.completeRun (s : State) : State :=
  match s.running with
  | none => s
  | some i =>
    s.deliver (serialResponse i (Decoder.steps i.width (bitsLeft i s.decoder) s.decoder))

end Sys2Proof.Machine
end

