-- ==== Sys2Proof/Machine/Fetch.lean ====
section
/-! DEFINITION. What a step takes up: the environment's next event, with the hold of 70_reset_and_hazards.md R117. -/

namespace Sys2Proof.Machine

/-- What there is to do: perform an operation on a state, go on from a state, or stop. -/
inductive Fetched where
  | perform (i : Instr) (s : State)
  | goOn (s : State)
  | stop (f : Fault)
  deriving DecidableEq, Repr

/-- The state once its first event is taken. -/
def State.took (s : State) : State := { s with events := s.events.tail }

/-- The next event. A request presented while an operation is in progress is not taken: that operation completes and the
request stays (R117). A read sees the ports as they stand (10_state.md R25). Reset abandons what is in progress (R114).
With no event the operation in progress completes (R119), and an idle block stays as it is (log entry 5). -/
def fetch (s : State) : Fetched :=
  match s.events with
  | [] => .goOn s.completeRun
  | .request r :: _ => if s.inProgress then .goOn s.completeRun else .perform (decode r) s.took
  | .accept r :: _ => if s.inProgress then .goOn s.completeRun else .goOn (s.took.acceptOp (decode r))
  | .bitStep :: _ => .goOn s.took.bitStep
  | .read :: _ =>
    match s.readResponse with
    | .ok _ => .goOn s.took
    | .error f => .stop f
  | .reset :: _ => .goOn s.took.resetBlock

/-- A request placed as the environment's next event with no operation in progress, so that the next step performs it. -/
def State.present (s : State) (r : Request) : State :=
  { s with running := none, events := .request r :: s.events }

end Sys2Proof.Machine
end

