-- ==== Sys2Proof/Machine/Dispatch.lean ====
section
/-! DEFINITION. One arm per operation. -/

namespace Sys2Proof.Machine

def exec (i : Instr) (s : State) : Host.Outcome State Fault Refusal :=
  match i with
  | .decompS x => Sys2Proof.Machine.execDecompS x s
  | .decompD x => Sys2Proof.Machine.execDecompD x s
  | .mdec23 x => Sys2Proof.Machine.execMdec23 x s
  | .mdec52 x => Sys2Proof.Machine.execMdec52 x s

end Sys2Proof.Machine
end

