-- ==== Sys2Proof/Machine/Step.lean ====
section
/-! DEFINITION. One step of the machine, and the placing of a table word where the next step takes it up. -/

namespace Sys2Proof.Machine

/-- One step: take up what comes next (`fetch`), and perform the operation it asks for (`exec`). -/
def step (s : State) : Host.Outcome State Fault Refusal :=
  match fetch s with
  | .perform i t => exec i t
  | .goOn t => .next t
  | .stop f => .fault f

/-- `s` with the table word presented as the next request and no operation in progress, so that the very next step
performs it (log entry 6). A number that is no request word (more than 66 bits) presents nothing. -/
def State.withFetchWord (s : State) (nbits w : Nat) : State :=
  if requestWordOk (tableWord nbits w) then s.present (Request.ofWord (BitVec.ofNat 66 (tableWord nbits w))) else s

end Sys2Proof.Machine
end

