-- ==== Sys2Proof/Machine/Render.lean ====
section
/-! DEFINITION. Text: digits written and read, the reference host's rendering of a response (45_host_driver.md R87 to R92), and the
response notation of 30_encoding.md R55. Nothing here is a property of the block (00_scope.md R4). -/

namespace Sys2Proof.Machine

/-- The character of a digit, upper-case from ten on (45_host_driver.md R92). -/
def digitChar (d : Nat) : Char := if d < 10 then Char.ofNat (48 + d) else Char.ofNat (55 + d)

/-- An ASCII letter in upper case (30_encoding.md R53: mnemonics are case-insensitive). -/
def upper (c : Char) : Char := if 97 ≤ c.toNat ∧ c.toNat ≤ 122 then Char.ofNat (c.toNat - 32) else c

/-- The value of a hex digit, in either case. -/
def hexValue (c : Char) : Option Nat :=
  let n := (upper c).toNat
  if 48 ≤ n ∧ n ≤ 57 then some (n - 48) else if 65 ≤ n ∧ n ≤ 70 then some (n - 55) else none

/-- The value of a digit text in base `b`, read from the left; it is meant for texts of digits below `b` alone. -/
def readBase (b : Nat) (t : Text) : Nat := t.foldl (fun v c => b * v + (hexValue c).getD 0) 0

/-- `v` in base `b` on exactly `n` digits, zero-padded on the left. -/
def fixedDigits (b : Nat) : Nat → Nat → Text
  | 0, _ => []
  | n + 1, v => digitChar (v / b ^ n % b) :: fixedDigits b n v

/-- `0x` and exactly `n` upper-case hex digits (45_host_driver.md R92). -/
def hexText (n v : Nat) : Text := '0' :: 'x' :: fixedDigits 16 n v

/-- How many decimal digits `n` has, at least one and, `fuel` permitting, no leading zero. -/
def decimalLength : Nat → Nat → Nat
  | 0, _ => 1
  | fuel + 1, n => if n < 10 then 1 else decimalLength fuel (n / 10) + 1

/-- A natural number in decimal with no leading zeros. -/
def natText (n : Nat) : Text := fixedDigits 10 (decimalLength n n) n

/-- A signed integer in decimal: a leading `-` if negative, no sign otherwise (45_host_driver.md R91; D18). -/
def intText : Int → Text
  | .ofNat n => natText n
  | .negSucc n => '-' :: natText (n + 1)

/-- `a / b` rounded to an integer, to nearest, ties to even (45_host_driver.md R89; D17). -/
def roundHalfEven (a b : Nat) : Nat :=
  let q := a / b
  let r := a % b
  if 2 * r < b then q else if b < 2 * r then q + 1 else if q % 2 = 0 then q else q + 1

/-- The value of `sig` is `significandNumerator / 2^52`: 1 and the 52 bits of the mantissa field (30_encoding.md R49). -/
def significandNumerator (sig : BitVec 64) : Nat := 2 ^ 52 + sig.toNat % 2 ^ 52

/-- The significand in units of `10^-D`, rounded (45_host_driver.md R89). -/
def significandScaled (places : Nat) (sig : BitVec 64) : Nat :=
  roundHalfEven (significandNumerator sig * 10 ^ places) (2 ^ 52)

/-- The significand text: one digit, a point, `places` digits (45_host_driver.md R89). -/
def significandText (places : Nat) (sig : BitVec 64) : Text :=
  natText (significandScaled places sig / 10 ^ places) ++
    '.' :: fixedDigits 10 places (significandScaled places sig)

/-- The sign character, always written (45_host_driver.md R90; 30_encoding.md R48). -/
def signChar (s : BitVec 1) : Char := if s = 0#1 then '+' else '-'

/-- The third line of a rendering, without its tab and newline (45_host_driver.md R87, R88). -/
def productText (places : Nat) (r : Response) : Text :=
  signChar r.sign :: (significandText places r.sig ++ [' ', '*', ' ', '2', '^'] ++ intText (exponentOf r))

/-- Label, tab, text, newline: the lines every output of the host is made of (45_host_driver.md R87, R88, R93; D22). -/
def labelled (label : Text) (lines : List Text) : Text :=
  label ++ '\n' :: (lines.map fun l => '\t' :: (l ++ ['\n'])).flatten

/-- `Single:` (45_host_driver.md R87, R93). -/
def singleLabel : Text := ['S', 'i', 'n', 'g', 'l', 'e', ':']

/-- `Double:` (45_host_driver.md R88, R93). -/
def doubleLabel : Text := ['D', 'o', 'u', 'b', 'l', 'e', ':']

/-- Single output (45_host_driver.md R87). -/
def renderSingle (r : Response) : Text :=
  labelled singleLabel [hexText 8 r.raw.toNat, productText 8 r]

/-- Double output (45_host_driver.md R88). -/
def renderDouble (r : Response) : Text :=
  labelled doubleLabel [hexText 16 r.raw.toNat, productText 17 r]

/-- The response in the spec's own form: raw, sign, the exponent as a decimal with its 12-bit pattern, mant and sig, in
braces, written by their character codes 123 and 125 (30_encoding.md R55). -/
def responseText (r : Response) : Text :=
  Char.ofNat 123 :: (['r', 'a', 'w', '='] ++ hexText 16 r.raw.toNat ++
    [',', ' ', 's', 'i', 'g', 'n', '='] ++ natText r.sign.toNat ++
    [',', ' ', 'e', 'x', 'p', '='] ++ intText (exponentOf r) ++ [' ', '('] ++ hexText 3 r.exp.toNat ++ [')'] ++
    [',', ' ', 'm', 'a', 'n', 't', '='] ++ hexText 13 r.mant.toNat ++
    [',', ' ', 's', 'i', 'g', '='] ++ hexText 16 r.sig.toNat ++ [Char.ofNat 125])

end Sys2Proof.Machine
end

