-- ==== Sys2Proof/Machine/Parse.lean ====
section
/-! DEFINITION. PARSE_S and PARSE_D: the syntax 45_host_driver.md R83 fixes, the range error of 92_eei_decisions.md D24,
and where the open conversion enters. The details of the syntax are PRESUMED (log entry 18). -/

namespace Sys2Proof.Machine

/-- What a parse answers (45_host_driver.md R83): "a value of its width, the count of characters consumed" and whether "a
range/conversion error was signaled". -/
structure ParseResult (n : Nat) where
  value      : BitVec n
  consumed   : Nat
  rangeError : Bool
  deriving DecidableEq, Repr

/-- "leading whitespace" (45_host_driver.md R83): space, tab, newline, vertical tab, form feed, carriage return (log entry
18). -/
def isSpace (c : Char) : Bool := c == ' ' || (9 ≤ c.toNat && c.toNat ≤ 13)

/-- A decimal digit. -/
def isDecimal (c : Char) : Bool := 48 ≤ c.toNat && c.toNat ≤ 57

/-- A hex digit, in either case. -/
def isHex (c : Char) : Bool := (hexValue c).isSome

/-- "optional sign" (45_host_driver.md R83): whether it is a minus sign, and the text after it. -/
def takeSign : Text → Bool × Text
  | '-' :: t => (true, t)
  | '+' :: t => (false, t)
  | t => (false, t)

/-- The digits of a significand, with or without a point: those before it, those after it, and the text that follows. There
is at least one digit in all (log entry 18). -/
def takeSignificand (digit : Char → Bool) (t : Text) : Option (Text × Text × Text) :=
  let whole := t.takeWhile digit
  match t.dropWhile digit with
  | '.' :: u =>
    let fraction := u.takeWhile digit
    if whole.isEmpty && fraction.isEmpty then none else some (whole, fraction, u.dropWhile digit)
  | u => if whole.isEmpty then none else some (whole, [], u)

/-- "optional exponent" (45_host_driver.md R83): a mark, an optional sign and decimal digits; with no digit there is no
exponent and nothing is consumed (log entry 18). -/
def takeExponent (mark : Char) (t : Text) : Int × Text :=
  match t with
  | [] => (0, t)
  | c :: u =>
    let signed := takeSign u
    let digits := signed.2.takeWhile isDecimal
    if upper c == mark && !digits.isEmpty then
      (if signed.1 then -(readBase 10 digits : Int) else (readBase 10 digits : Int), signed.2.dropWhile isDecimal)
    else (0, t)

/-- A significand and its exponent, in hex-float syntax with the mark `p` or in decimal syntax with the mark `e`
(45_host_driver.md R83): the literal and the text that follows. -/
def scanUnsigned (negative hex : Bool) (t : Text) : Option (Config.NumberLiteral × Text) :=
  match takeSignificand (if hex then isHex else isDecimal) t with
  | none => none
  | some (whole, fraction, u) =>
    let e := takeExponent (if hex then 'P' else 'E') u
    some (⟨negative, hex, whole, fraction, e.1⟩, e.2)

/-- The text after `0x`, in either case of the letter. -/
def afterHexPrefix : Text → Option Text
  | '0' :: x :: t => if upper x == 'X' then some t else none
  | _ => none

/-- "leading whitespace skipped, optional sign, decimal or hex-float syntax, optional exponent" (45_host_driver.md R83):
the literal a text begins with and the text after it. `0x` with no hex significand after it is the number 0 (log entry
18). -/
def scanNumber (t : Text) : Option (Config.NumberLiteral × Text) :=
  let signed := takeSign (t.dropWhile isSpace)
  ((afterHexPrefix signed.2).bind (scanUnsigned signed.1 true)).or (scanUnsigned signed.1 false signed.2)

/-- A literal that is not zero: some digit of its significand is not 0. -/
def nonzeroLiteral (l : Config.NumberLiteral) : Bool :=
  (l.whole ++ l.fraction).any fun c => c != '0'

/-- What a parse asks of a pattern of its width. -/
structure ParseFormat (n : Nat) where
  /-- The exponent field is all zero. -/
  exponentIsZero : BitVec n → Bool
  /-- The mantissa field is all zero. -/
  mantissaIsZero : BitVec n → Bool
  /-- The pattern with its exponent field set to all ones. -/
  nonFinite : BitVec n → BitVec n

/-- Single precision (30_encoding.md R42). -/
def singleFormat : ParseFormat 32 where
  exponentIsZero v := singleExpField v == 0#8
  mantissaIsZero v := singleMantField v == 0#23
  nonFinite v := singleSign v ++ (255#8 ++ singleMantField v)

/-- Double precision (30_encoding.md R43). -/
def doubleFormat : ParseFormat 64 where
  exponentIsZero v := doubleExpField v == 0#11
  mantissaIsZero v := doubleMantField v == 0#52
  nonFinite v := doubleSign v ++ (2047#11 ++ doubleMantField v)

/-- The result "is subnormal or flushed to zero" (92_eei_decisions.md D24): an all-zero exponent field, with a mantissa
field that is not zero or a literal that is not zero. -/
def underflows {n : Nat} (f : ParseFormat n) (l : Config.NumberLiteral) (v : BitVec n) : Bool :=
  f.exponentIsZero v && (!f.mantissaIsZero v || nonzeroLiteral l)

/-- PARSE_S or PARSE_D on a text (45_host_driver.md R83). A number is converted by the open conversion, which sees the
literal alone; the range error is an overflow, or an underflow where PARSE_UNDERFLOW_IS_ERROR (D24). A text that spells no
number is outside the syntax: nothing is consumed, or what is consumed stands for no finite value (DESIGN CHOICE, log entry 19). -/
def parse {n : Nat} (f : ParseFormat n) (p : Config.ParseParams n) (underflowIsError : Bool) (t : Text) : ParseResult n :=
  match scanNumber t with
  | some (l, rest) =>
    let c := p.convert l
    ⟨c.value, t.length - rest.length, c.overflow || (underflowIsError && underflows f l c.value)⟩
  | none =>
    let a := p.noNumber t
    ⟨if a.consumed = 0 then a.pattern else f.nonFinite a.pattern, min a.consumed t.length, a.signaled⟩

end Sys2Proof.Machine
end

