-- ==== Sys2Proof/Machine/Driver.lean ====
section
/-! DEFINITION. The reference host, the source's Driver (45_host_driver.md): it checks its parses, issues at most two
operations and renders their responses. It is no part of the block (00_scope.md R4). -/

namespace Sys2Proof.Machine

/-- What one invocation shows: standard output, error stream, exit status (45_host_driver.md R94, R97). -/
structure Observation where
  out    : Text
  err    : Text
  status : Nat
  deriving DecidableEq, Repr

/-- The four states of the reference host (45_host_driver.md R81). -/
inductive DriverPhase where
  | start
  | parseSingle
  | parseDouble
  | done
  deriving DecidableEq, Repr

/-- The open parameters the host runs with (45_host_driver.md R82, R83). -/
structure DriverParams where
  single           : Config.ParseParams 32
  double           : Config.ParseParams 64
  usageText        : Text
  underflowIsError : Bool

/-- The parameters of the reference host, all open (log entry 8). -/
def referenceParams : DriverParams :=
  ⟨Config.parseS, Config.parseD, Config.usageText, Config.parseUnderflowIsError⟩

/-- PARSE_S (45_host_driver.md R83). -/
def DriverParams.parseS (p : DriverParams) (t : Text) : ParseResult 32 :=
  parse singleFormat p.single p.underflowIsError t

/-- PARSE_D (45_host_driver.md R83). -/
def DriverParams.parseD (p : DriverParams) (t : Text) : ParseResult 64 :=
  parse doubleFormat p.double p.underflowIsError t

/-- "a normal/subnormal/zero value": the exponent field is not all ones (45_host_driver.md R84). -/
def finiteSingle (v : Pattern32) : Bool := singleExpField v != 255#8

/-- The same for double (45_host_driver.md R84). -/
def finiteDouble (v : Pattern64) : Bool := doubleExpField v != 2047#11

/-- A representation fails if nothing was consumed, or a range error was signaled, or the value is not finite
(45_host_driver.md R84). -/
def singleFails (r : ParseResult 32) : Bool :=
  r.consumed == 0 || r.rangeError || !finiteSingle r.value

/-- The same for double (45_host_driver.md R84). -/
def doubleFails (r : ParseResult 64) : Bool :=
  r.consumed == 0 || r.rangeError || !finiteDouble r.value

/-- DECOMP.S with `x = zext_64(bits32(v))` (45_host_driver.md R86). -/
def singleOperation (v : Pattern32) : Instr := .decompS (v.setWidth 64)

/-- DECOMP.D with `x = bits64(v)` (45_host_driver.md R86). -/
def doubleOperation (v : Pattern64) : Instr := .decompD v

/-- ` bad or out of range` (45_host_driver.md R93). -/
def badText : Text :=
  [' ', 'b', 'a', 'd', ' ', 'o', 'r', ' ', 'o', 'u', 't'] ++
    [' ', 'o', 'f', ' ', 'r', 'a', 'n', 'g', 'e']

/-- The error output of a failed representation (45_host_driver.md R93). -/
def badInput (label input : Text) : Text := labelled label [input ++ badText]

/-- What the host has done so far: its phase, the operations it has issued in order, and its two streams. -/
structure DriverState where
  phase  : DriverPhase
  issued : List Instr
  out    : Text
  err    : Text
  deriving DecidableEq, Repr

/-- One phase of the host on its one argument (45_host_driver.md R81, R85, R97). -/
def driverStep (p : DriverParams) (arg : Text) (d : DriverState) : DriverState :=
  match d.phase with
  | .start => { d with phase := .parseSingle }
  | .parseSingle =>
    let r := p.parseS arg
    if singleFails r then
      { d with phase := .parseDouble, err := d.err ++ badInput singleLabel arg }
    else
      { d with phase := .parseDouble, issued := d.issued ++ [singleOperation r.value],
               out := d.out ++ renderSingle (respond (singleOperation r.value)) }
  | .parseDouble =>
    let r := p.parseD arg
    if doubleFails r then
      { d with phase := .done, err := d.err ++ badInput doubleLabel arg }
    else
      { d with phase := .done, issued := d.issued ++ [doubleOperation r.value],
               out := d.out ++ renderDouble (respond (doubleOperation r.value)) }
  | .done => d

/-- The host run through its phases on its one argument (45_host_driver.md R81). -/
def driverRun (p : DriverParams) (arg : Text) : DriverState :=
  driverStep p arg (driverStep p arg (driverStep p arg ⟨.start, [], [], []⟩))

/-- One invocation with an argument list (45_host_driver.md R82, R95, R97). -/
def observe (p : DriverParams) (args : List Text) : Observation :=
  match args with
  | [arg] => let d := driverRun p arg; ⟨d.out, d.err, 0⟩
  | _ => ⟨[], p.usageText, 1⟩

/-- The operations one invocation issues to the block, in order (45_host_driver.md R82, R85). -/
def issuedBy (p : DriverParams) (args : List Text) : List Instr :=
  match args with
  | [arg] => (driverRun p arg).issued
  | _ => []

end Sys2Proof.Machine
end

