-- ==== Sys2Proof/Machine/Script.lean ====
section
/-! DEFINITION. The script lines of 30_encoding.md R53 and R54: reading one, and writing one. -/

namespace Sys2Proof.Machine

/-- Why a line is no request line. -/
inductive ScriptError where
  /-- Not two words (30_encoding.md R53: `MNEMONIC OPERAND`). -/
  | shape
  /-- The first word is none of the four mnemonics. -/
  | mnemonic
  /-- The second word is no hex literal of 1 to 16 digits. -/
  | operand
  deriving DecidableEq, Repr

/-- Space and tab part the words of a line (log entry 9). -/
def isBlank (c : Char) : Bool := c == ' ' || c == '\t'

/-- Not blank. -/
def isInk (c : Char) : Bool := !isBlank c

/-- "Text after `;` is a comment" (30_encoding.md R53). -/
def dropComment (t : Text) : Text := t.takeWhile (· != ';')

/-- The words of a line. -/
def wordsOf (t : Text) : Option (Text × Text) :=
  let t1 := t.dropWhile isBlank
  let t2 := (t1.dropWhile isInk).dropWhile isBlank
  let rest := t2.dropWhile isInk
  if rest.all isBlank then some (t1.takeWhile isInk, t2.takeWhile isInk) else none

/-- The mnemonic of an operation (30_encoding.md R40). -/
def mnemonicText : Instr → Text
  | .decompS _ => ['D', 'E', 'C', 'O', 'M', 'P', '.', 'S']
  | .decompD _ => ['D', 'E', 'C', 'O', 'M', 'P', '.', 'D']
  | .mdec23 _ => ['M', 'D', 'E', 'C', '.', '2', '3']
  | .mdec52 _ => ['M', 'D', 'E', 'C', '.', '5', '2']

/-- The operation a mnemonic names, in any case of its letters (30_encoding.md R53). -/
def operationNamed (t : Text) (x : Word64) : Option Instr :=
  [Instr.decompS x, .decompD x, .mdec23 x, .mdec52 x].find? fun i => t.map upper == mnemonicText i

/-- Hex digits read from the left, with `_` allowed between two digits (30_encoding.md R53; log entry 9): the value, and
how many digits there were. `afterDigit` says that the character before was a digit. -/
def readDigits (afterDigit : Bool) (value count : Nat) : Text → Option (Nat × Nat)
  | [] => if afterDigit then some (value, count) else none
  | c :: cs =>
    if c == '_' then (if afterDigit then readDigits false value count cs else none)
    else
      match hexValue c with
      | some d => readDigits true (16 * value + d) (count + 1) cs
      | none => none

/-- A hex literal: `0x` and 1 to 16 digits, zero-extended to 64 bits (30_encoding.md R53). -/
def readOperand : Text → Option Word64
  | '0' :: 'x' :: ds =>
    match readDigits false 0 0 ds with
    | some (v, n) => if n ≤ 16 then some (BitVec.ofNat 64 v) else none
    | none => none
  | _ => none

/-- One script line read (30_encoding.md R53). Every line is one of the four operations (R54). -/
def assembleLine (t : Text) : Except ScriptError Instr :=
  match wordsOf (dropComment t) with
  | none => .error .shape
  | some (m, o) =>
    if m.isEmpty || o.isEmpty then .error .shape
    else
      match readOperand o with
      | none => .error .operand
      | some x =>
        match operationNamed m x with
        | some i => .ok i
        | none => .error .mnemonic

/-- The request word a line assembles to, `REQ = op ‖ x` (30_encoding.md R53). -/
def assembleRequest (t : Text) : Except ScriptError Request := (assembleLine t).map encode

/-- An operation written as a script line with all 16 digits. -/
def scriptLine (i : Instr) : Text := mnemonicText i ++ ' ' :: hexText 16 i.x.toNat

end Sys2Proof.Machine
end

