-- ==== Sys2Proof/Safety.lean ====
section
/-! DEFINITION. The terms the claims use: the invariant of the machine, what of it is visible, the values that patterns
stand for, and a run's events. -/

namespace Sys2Proof.Machine

/-- The working values after `k` bit steps (40_mantissa_decoder.md R59, R58): `acc = 1 + (the first k bits)·2^-k`,
`wt = 2^-(k+1)`, `sh` the field shifted left `k` times within W bits. -/
def Decoder.standsAt (w : Width) (m : Nat) (k : Nat) (d : Decoder) : Prop :=
  d.acc = 1 + ((m / 2 ^ (w.bits - k) : Nat) : Rat) / 2 ^ k ∧
  d.wt = 1 / 2 ^ (k + 1) ∧
  d.sh.toNat = m * 2 ^ k % 2 ^ w.bits ∧
  d.i = k

/-- An operation in progress is somewhere inside its decoder loop (10_state.md R22: the step counter is in 0..W). -/
def State.runInLoop (s : State) : Prop :=
  ∀ i, s.running = some i →
    s.decoder.i ≤ i.width.bits ∧ Decoder.standsAt i.width (mantissaOf i).toNat s.decoder.i s.decoder

/-- The value on the response ports is some operation's response, whole (10_state.md R17, R25). -/
def State.responseGenuine (s : State) : Prop := ∀ r, s.response = some r → ∃ i, r = respond i

/-- The invariant of the machine. -/
structure State.Inv (s : State) : Prop where
  inLoop  : s.runInLoop
  genuine : s.responseGenuine

/-- What a host can see, by the column "visible" of 10_state.md R26: the last response, and the requests it drives itself,
which come with its other events. The decoder's working values and the operation in progress are not visible (R23, R26). -/
def State.visible (s : State) : Option Response × List Event := (s.response, s.events)

/-- The same for an outcome: a fault and a refusal are seen as they are. -/
def visibleOutcome : Host.Outcome State Fault Refusal →
    Host.Outcome (Option Response × List Event) Fault Refusal
  | .next s => .next s.visible
  | .fault f => .fault f
  | .refused r => .refused r

/-- `k` steps, stopping at the first fault or refusal: the host's run of the machine, on this machine's own types. -/
def runSteps : Nat → State → Host.Outcome State Fault Refusal
  | 0, s => .next s
  | k + 1, s =>
    match step s with
    | .next t => runSteps k t
    | .fault f => .fault f
    | .refused r => .refused r

/-- The value the binary64 pattern of a normalized value stands for (41_format_decomposer.md R76; K2). -/
def normalDoubleValue (p : Pattern64) : Rat :=
  (-1) ^ (doubleSign p).toNat * (1 + ((doubleMantField p).toNat : Rat) / 2 ^ Config.wD) * 2 ^ doubleExponent p

/-- The value the single pattern of a normalized value stands for (41_format_decomposer.md R76; K2). -/
def normalSingleValue (p : Pattern32) : Rat :=
  (-1) ^ (singleSign p).toNat * (1 + ((singleMantField p).toNat : Rat) / 2 ^ Config.wS) * 2 ^ singleExponent p

/-- The value a subnormal or zero double pattern stands for (41_format_decomposer.md R77; K3). -/
def subnormalDoubleValue (p : Pattern64) : Rat :=
  (-1) ^ (doubleSign p).toNat * (((doubleMantField p).toNat : Rat) / 2 ^ Config.wD) * 2 ^ (1 - (Config.biasD : Int))

/-- The value a subnormal or zero single pattern stands for (41_format_decomposer.md R77; K3). -/
def subnormalSingleValue (p : Pattern32) : Rat :=
  (-1) ^ (singleSign p).toNat * (((singleMantField p).toNat : Rat) / 2 ^ Config.wS) * 2 ^ (1 - (Config.biasS : Int))

/-- The product a response stands for, `(-1)^sign × significand × 2^exponent`, the significand being the value of the
`sig` pattern (41_format_decomposer.md R76). -/
def Response.value (r : Response) : Rat :=
  (-1) ^ r.sign.toNat * normalDoubleValue r.sig * 2 ^ exponentOf r

/-- Exponent field neither all zero nor all one (00_scope.md R14). -/
def normalizedSingle (p : Pattern32) : Prop := singleExpField p ≠ 0#8 ∧ singleExpField p ≠ 255#8

/-- Exponent field neither all zero nor all one (00_scope.md R14). -/
def normalizedDouble (p : Pattern64) : Prop := doubleExpField p ≠ 0#11 ∧ doubleExpField p ≠ 2047#11

/-! ### The syntax of the host's parses, as the texts it describes (45_host_driver.md R83; log entry 18) -/

/-- The decimal digits. -/
def decimalDigits : List Char := ['0', '1', '2', '3', '4', '5', '6', '7', '8', '9']

/-- The hex digits, of either case. -/
def hexDigits : List Char := decimalDigits ++ ['a', 'b', 'c', 'd', 'e', 'f', 'A', 'B', 'C', 'D', 'E', 'F']

/-- An exponent as it is written: its mark, its sign if it has one, its digits. -/
structure ExponentSpelling where
  mark   : Char
  sign   : Option Char
  digits : Text

/-- A number as it is written: leading whitespace, the sign if there is one, the letter of `0x` if it is hex, the digits
before the point, the point with the digits after it, the exponent. -/
structure Spelling where
  space    : Text
  sign     : Option Char
  hexMark  : Option Char
  whole    : Text
  fraction : Option Text
  exponent : Option ExponentSpelling

/-- The digits a significand is written in. -/
def Spelling.digits (n : Spelling) : List Char := if n.hexMark.isSome then hexDigits else decimalDigits

/-- The letters an exponent may begin with. -/
def Spelling.marks (n : Spelling) : List Char := if n.hexMark.isSome then ['p', 'P'] else ['e', 'E']

/-- The text of `0x`, or nothing. -/
def hexPrefixText : Option Char → Text
  | none => []
  | some x => ['0', x]

/-- The text of a point and the digits after it, or nothing. -/
def fractionText : Option Text → Text
  | none => []
  | some f => '.' :: f

/-- The text of an exponent, or nothing. -/
def exponentText : Option ExponentSpelling → Text
  | none => []
  | some e => e.mark :: (e.sign.toList ++ e.digits)

/-- The value of an exponent, 0 where none is written. -/
def exponentValue : Option ExponentSpelling → Int
  | none => 0
  | some e => if e.sign = some '-' then -(readBase 10 e.digits : Int) else (readBase 10 e.digits : Int)

/-- The whole text. -/
def Spelling.text (n : Spelling) : Text :=
  n.space ++ (n.sign.toList ++ (hexPrefixText n.hexMark ++
    (n.whole ++ (fractionText n.fraction ++ exponentText n.exponent))))

/-- The literal it spells. -/
def Spelling.literal (n : Spelling) : Config.NumberLiteral :=
  ⟨n.sign == some '-', n.hexMark.isSome, n.whole, n.fraction.getD [], exponentValue n.exponent⟩

/-- Every part is what the syntax lets stand there, and there is a digit before the point or after it. -/
structure Spelling.Ok (n : Spelling) : Prop where
  space    : ∀ c ∈ n.space, c ∈ [' ', '\t', '\n', Char.ofNat 11, Char.ofNat 12, '\r']
  sign     : ∀ c, n.sign = some c → c = '+' ∨ c = '-'
  hexMark  : ∀ c, n.hexMark = some c → c = 'x' ∨ c = 'X'
  digits   : ∀ c ∈ n.whole ++ n.fraction.getD [], c ∈ n.digits
  nonempty : n.whole ++ n.fraction.getD [] ≠ []
  exponent : ∀ e, n.exponent = some e → e.mark ∈ n.marks ∧ (∀ c, e.sign = some c → c = '+' ∨ c = '-') ∧
    e.digits ≠ [] ∧ ∀ c ∈ e.digits, c ∈ decimalDigits

/-- The text after the number does not carry it on: no digit where digits stood last, no point where there was none, no
exponent where there was none (`e` without digits is none), and no hex significand that would make `0` the `0` of `0x`. -/
structure Spelling.EndsBefore (n : Spelling) (rest : Text) : Prop where
  afterExponent : n.exponent ≠ none → ∀ c u, rest = c :: u → c ∉ decimalDigits
  noDigit       : n.exponent = none → ∀ c u, rest = c :: u → c ∉ n.digits
  noPoint       : n.exponent = none → n.fraction = none → ∀ u, rest ≠ '.' :: u
  noExponent    : n.exponent = none → ∀ m (sg : Option Char) d u, rest = m :: (sg.toList ++ d :: u) → m ∈ n.marks →
    (∀ c, sg = some c → c = '+' ∨ c = '-') → d ∉ decimalDigits
  noHex         : n.exponent = none → n.fraction = none → n.hexMark = none → n.whole = ['0'] →
    ∀ x u, rest = x :: u → (x = 'x' ∨ x = 'X') →
      (∀ c v, u = c :: v → c ∉ hexDigits) ∧ ∀ c v, u = '.' :: c :: v → c ∉ hexDigits

end Sys2Proof.Machine
end

