-- ==== Sys2Proof/Certificates/Slice0/Obligations.lean ====
section
/-! DEFINITION. The statements for the provers. Each docstring names the rules of spec/ it formalises. -/

open Sys2Proof Sys2Proof.Machine

/-! ### Requests and their decoding -/

/-- Decode and encode agree, in both directions, on the request word and on the table's numbers (30_encoding.md R38,
R40; opcode_table.json). -/
def Obligations.DecodeAndEncodeAgree : Prop :=
  (∀ i : Instr, decodeWord (encodeWord i) = i ∧ decodeTableWord 72 (encodeWord i).toNat = some i) ∧
  (∀ w : ReqWord, encodeWord (decodeWord w) = w)

/-- 30_encoding.md R40: the four codes, and in `REQ` terms the masks and matches. -/
def Obligations.OpcodeRowsSelectTheOperations : Prop :=
  ∀ w : ReqWord,
    (w &&& 0x30000000000000000#66 = 0x00000000000000000#66 ↔ decodeWord w = .decompS (w.setWidth 64)) ∧
    (w &&& 0x30000000000000000#66 = 0x10000000000000000#66 ↔ decodeWord w = .decompD (w.setWidth 64)) ∧
    (w &&& 0x30000000000000000#66 = 0x20000000000000000#66 ↔ decodeWord w = .mdec23 (w.setWidth 64)) ∧
    (w &&& 0x30000000000000000#66 = 0x30000000000000000#66 ↔ decodeWord w = .mdec52 (w.setWidth 64)) ∧
    (decodeWord w).op = w.extractLsb' 64 2 ∧
    ∀ i : Instr, (i.row.fits w = true ↔ (decodeWord w).op = i.op) ∧
      (i.op.getLsbD 1 = true ↔ i.kind = .decodeOnly) ∧ (i.op.getLsbD 0 = true ↔ i.width = .w52)

/-- 30_encoding.md R39: `op[0]` is the format bit, `op[1]` the kind bit, and the width is 23 or 52 by the first. -/
def Obligations.OperationCodeBitsGiveWidthAndKind : Prop :=
  ∀ r : Request,
    (decode r).width.bits = (if r.op.getLsbD 0 then 52 else 23) ∧
    (decode r).kind = (if r.op.getLsbD 1 then Kind.decodeOnly else Kind.decompose)

/-- 30_encoding.md R50: the decoder is total on all 2^66 words, every operand is legal, no request traps, and no request
names a width other than 23 and 52. -/
def Obligations.EveryRequestWordIsAnOperation : Prop :=
  (∀ w : Nat, w < 2 ^ 66 → ∃ i : Instr, decodeTableWord 72 w = some i ∧ encodeWord i = BitVec.ofNat 66 w) ∧
  (∀ i : Instr, i.wellFormed = true) ∧
  (∀ (r : Request) (s : State), ∃ t, step (s.present r) = .next t) ∧
  (∀ r : Request, (decode r).width.bits = 23 ∨ (decode r).width.bits = 52)

/-- Sanity: words written out from 30_encoding.md R38 and R40, one per row of the opcode table. The last clause, that 2^66
is refused, is the model's choice (DESIGN CHOICE, log entry 15). -/
def Obligations.WordsOfTheTableDecode : Prop :=
  decodeTableWord 72 0x000000000C0200000 = some (.decompS 0x00000000C0200000#64) ∧
  decodeTableWord 72 0x13FF0000000000000 = some (.decompD 0x3FF0000000000000#64) ∧
  decodeTableWord 72 0x20000000000200000 = some (.mdec23 0x0000000000200000#64) ∧
  decodeTableWord 72 0x30008000000000000 = some (.mdec52 0x0008000000000000#64) ∧
  decodeTableWord 72 0x40000000000000000 = none

/-- A step performs the request presented next: when nothing is in progress, a step is exec of the decoded request with
that request taken. The second clause, the same for a word placed by withFetchWord, which clears an operation in progress,
is the model's choice (DESIGN CHOICE, log entry 6): the block itself holds such a request (70_reset_and_hazards.md R117). -/
def Obligations.StepPerformsThePresentedRequest : Prop :=
  (∀ (s : State) (r : Request) (es : List Event), s.running = none → s.events = .request r :: es →
    step s = exec (decode r) { s with events := es }) ∧
  (∀ (s : State) (nbits w : Nat), w < 2 ^ 66 → w < 2 ^ nbits →
    step (s.withFetchWord nbits w) = exec (decodeWord (BitVec.ofNat 66 w)) { s with running := none })

/-! ### The four operations -/

/-- 41_format_decomposer.md R74: DECOMP.S completes from every state, for every operand, with these five fields; the
coming events are as before and nothing is in progress. -/
def Obligations.DecompSGivesItsResponse : Prop :=
  ∀ (x : Word64) (s : State), decode ⟨0b00#2, x⟩ = .decompS x ∧ ∃ t r,
    exec (.decompS x) s = .next t ∧ t.response = some r ∧
    r.raw.toNat = x.toNat % 2 ^ 32 ∧
    r.sign.toNat = x.toNat / 2 ^ 31 % 2 ∧
    r.exp.toInt = ((x.toNat / 2 ^ 23 % 2 ^ 8 : Nat) : Int) - 127 ∧
    r.mant.toNat = x.toNat % 2 ^ 23 ∧
    r.sig = b64 (mantDec .w23 (x.toNat % 2 ^ 23)) ∧
    r.sig.toNat = 0x3FF0000000000000 + x.toNat % 2 ^ 23 * 2 ^ 29 ∧
    t.events = s.events ∧ t.running = none

/-- 41_format_decomposer.md R75: DECOMP.D, likewise. -/
def Obligations.DecompDGivesItsResponse : Prop :=
  ∀ (x : Word64) (s : State), decode ⟨0b01#2, x⟩ = .decompD x ∧ ∃ t r,
    exec (.decompD x) s = .next t ∧ t.response = some r ∧
    r.raw = x ∧
    r.sign.toNat = x.toNat / 2 ^ 63 ∧
    r.exp.toInt = ((x.toNat / 2 ^ 52 % 2 ^ 11 : Nat) : Int) - 1023 ∧
    r.mant.toNat = x.toNat % 2 ^ 52 ∧
    r.sig = b64 (mantDec .w52 (x.toNat % 2 ^ 52)) ∧
    r.sig.toNat = 0x3FF0000000000000 + x.toNat % 2 ^ 52 ∧
    t.events = s.events ∧ t.running = none

/-- 40_mantissa_decoder.md R62: MDEC.23, likewise. -/
def Obligations.Mdec23GivesItsResponse : Prop :=
  ∀ (x : Word64) (s : State), decode ⟨0b10#2, x⟩ = .mdec23 x ∧ ∃ t r,
    exec (.mdec23 x) s = .next t ∧ t.response = some r ∧
    r.raw.toNat = x.toNat % 2 ^ 23 ∧
    r.sign.toNat = 0 ∧
    r.exp.toInt = 0 ∧
    r.mant.toNat = x.toNat % 2 ^ 23 ∧
    r.sig = b64 (mantDec .w23 (x.toNat % 2 ^ 23)) ∧
    r.sig.toNat = 0x3FF0000000000000 + x.toNat % 2 ^ 23 * 2 ^ 29 ∧
    t.events = s.events ∧ t.running = none

/-- 40_mantissa_decoder.md R63: MDEC.52, likewise. -/
def Obligations.Mdec52GivesItsResponse : Prop :=
  ∀ (x : Word64) (s : State), decode ⟨0b11#2, x⟩ = .mdec52 x ∧ ∃ t r,
    exec (.mdec52 x) s = .next t ∧ t.response = some r ∧
    r.raw.toNat = x.toNat % 2 ^ 52 ∧
    r.sign.toNat = 0 ∧
    r.exp.toInt = 0 ∧
    r.mant.toNat = x.toNat % 2 ^ 52 ∧
    r.sig = b64 (mantDec .w52 (x.toNat % 2 ^ 52)) ∧
    r.sig.toNat = 0x3FF0000000000000 + x.toNat % 2 ^ 52 ∧
    t.events = s.events ∧ t.running = none

/-- 30_encoding.md R45: the operand bits above an operation's slice affect no field of the response and raise nothing;
DECOMP.D ignores none. -/
def Obligations.IgnoredOperandBitsHaveNoEffect : Prop :=
  ∀ (x y : Word64) (s : State),
    (x.toNat % 2 ^ 32 = y.toNat % 2 ^ 32 → exec (.decompS x) s = exec (.decompS y) s) ∧
    (x.toNat % 2 ^ 23 = y.toNat % 2 ^ 23 → exec (.mdec23 x) s = exec (.mdec23 y) s) ∧
    (x.toNat % 2 ^ 52 = y.toNat % 2 ^ 52 → exec (.mdec52 x) s = exec (.mdec52 y) s) ∧
    (exec (.decompD x) s = exec (.decompD y) s → x = y) ∧
    (∀ i : Instr, ∃ t, exec i s = .next t)

/-- 10_state.md R24: equal requests give equal responses, from any two states with nothing in progress, whatever came
before. -/
def Obligations.ResponseDependsOnTheRequestAlone : Prop :=
  ∀ (s₁ s₂ : State) (r : Request) (es₁ es₂ : List Event),
    s₁.running = none → s₂.running = none → s₁.events = .request r :: es₁ → s₂.events = .request r :: es₂ →
    ∃ t₁ t₂ q, step s₁ = .next t₁ ∧ step s₂ = .next t₂ ∧ t₁.response = some q ∧ t₂.response = some q

/-- 20_memory.md R35: the k-th response answers the k-th request. -/
def Obligations.KthResponseAnswersTheKthRequest : Prop :=
  ∀ (rs : List Request) (es : List Event) (s : State) (k : Nat) (h : k < rs.length),
    s.running = none → s.events = rs.map .request ++ es →
    ∃ t, runSteps (k + 1) s = .next t ∧ t.response = some (respond (decode rs[k])) ∧
      t.running = none ∧ t.events = (rs.drop (k + 1)).map .request ++ es

/-! ### The Mantissa Decoder -/

/-- 40_mantissa_decoder.md R56: `1 + m[w-1:0] / 2^w`, only the low bits entering, a value in [1, 2). -/
def Obligations.MantDecIsOnePlusTheFraction : Prop :=
  ∀ (w : Width) (m : Nat),
    mantDec w m = 1 + ((m % 2 ^ w.bits : Nat) : Rat) / 2 ^ w.bits ∧ 1 ≤ mantDec w m ∧ mantDec w m < 2

/-- 40_mantissa_decoder.md R57: the bit at position j weighs `2^-(w-j)`: the most significant one 1/2, the least
significant one 2^-w. -/
def Obligations.MantissaBitsWeighMostSignificantFirst : Prop :=
  ∀ (w : Width) (m j : Nat), j < w.bits → m.testBit j = false →
    mantDec w (m + 2 ^ j) = mantDec w m + 1 / 2 ^ (w.bits - j)

/-- 40_mantissa_decoder.md R59: after k bit steps `acc = 1 + (the first k bits)·2^-k`, a multiple of 2^-k below 2, so of at
most k + 1 ≤ 53 significant bits, and `wt` is a power of two; the final value is representable: the value of its binary64
pattern is `MantDec(m, w)` exactly. -/
def Obligations.PartialSumsAreExact : Prop :=
  ∀ (w : Width) (m : Field52),
    (∀ k : Nat, k ≤ w.bits →
      let d := Decoder.steps w k (Decoder.start w m)
      d.acc = 1 + ((m.toNat % 2 ^ w.bits / 2 ^ (w.bits - k) : Nat) : Rat) / 2 ^ k ∧ d.wt = 1 / 2 ^ (k + 1) ∧
      k + 1 ≤ 53 ∧ ∃ n : Nat, n < 2 ^ (k + 1) ∧ d.acc = (n : Rat) / 2 ^ k) ∧
    (Decoder.run w m).acc = mantDec w m.toNat ∧
    normalDoubleValue (b64 (Decoder.run w m).acc) = mantDec w m.toNat

/-- 40_mantissa_decoder.md R58: at step k the bit examined is `m[w-1-k]` and the weight is `2^-(k+1)`; the loop runs exactly
W steps and returns `MantDec(m, w)`. -/
def Obligations.BitSerialLoopReturnsMantDec : Prop :=
  ∀ (w : Width) (m : Field52),
    (∀ k : Nat, k < w.bits →
      (Decoder.steps w k (Decoder.start w m)).sh.getLsbD (w.bits - 1) = m.toNat.testBit (w.bits - 1 - k) ∧
      (Decoder.steps w k (Decoder.start w m)).wt = 1 / 2 ^ (k + 1)) ∧
    (Decoder.run w m).acc = mantDec w m.toNat ∧ (Decoder.run w m).i = w.bits

/-- 40_mantissa_decoder.md R60: the delivered pattern, in general and for each width; its sign and exponent bits. -/
def Obligations.DecoderPatternIsB64OfMantDec : Prop :=
  ∀ m : Field52,
    b64 (mantDec .w52 m.toNat) = 0x3FF0000000000000#64 ||| m.setWidth 64 ∧
    b64 (mantDec .w23 m.toNat) = 0x3FF0000000000000#64 ||| ((m.extractLsb' 0 23).setWidth 64 <<< 29) ∧
    ∀ w : Width, significandPattern w m = b64 (mantDec w m.toNat) ∧
      (significandPattern w m).extractLsb' 63 1 = 0#1 ∧ (significandPattern w m).extractLsb' 52 11 = 0x3FF#11

/-- 30_encoding.md R49: `B64(1 + f·2^-52)` is `0x3FF0_0000_0000_0000 | f`, the value of that pattern is the value encoded,
and every value MantDec returns has this form. -/
def Obligations.B64EncodesItsValue : Prop :=
  (∀ f : Nat, f < 2 ^ 52 →
    b64 (1 + (f : Rat) / 2 ^ 52) = 0x3FF0000000000000#64 ||| BitVec.ofNat 64 f ∧
    normalDoubleValue (b64 (1 + (f : Rat) / 2 ^ 52)) = 1 + (f : Rat) / 2 ^ 52) ∧
  ∀ (w : Width) (m : Nat), ∃ f : Nat, f < 2 ^ 52 ∧ mantDec w m = 1 + (f : Rat) / 2 ^ 52

/-- 40_mantissa_decoder.md R59: no rounding: the value of the `sig` pattern every operation delivers IS the decoder's
exact value of its mantissa field. -/
def Obligations.DeliveredSignificandIsExact : Prop :=
  ∀ (i : Instr) (s : State), ∃ t r, exec i s = .next t ∧ t.response = some r ∧
    normalDoubleValue r.sig = mantDec i.width (mantissaOf i).toNat

/-- 40_mantissa_decoder.md R64: strictly increasing, and the `sig` patterns order as unsigned integers. -/
def Obligations.DecoderIsStrictlyIncreasing : Prop :=
  ∀ (w : Width) (m₁ m₂ : Field52), m₁.toNat < m₂.toNat → m₂.toNat < 2 ^ w.bits →
    mantDec w m₁.toNat < mantDec w m₂.toNat ∧
    (significandPattern w m₁).toNat < (significandPattern w m₂).toNat

/-- 40_mantissa_decoder.md R65: 0 decodes to exactly 1, the largest field to exactly 2 - 2^-w, which meets both bounds. -/
def Obligations.DecoderBoundaries : Prop :=
  ∀ w : Width, mantDec w 0 = 1 ∧ mantDec w (2 ^ w.bits - 1) = 2 - 1 / 2 ^ w.bits ∧
    mantDec w (2 ^ w.bits - 1) < 2 ∧ 2 - 1 / 2 ^ w.bits ≤ mantDec w (2 ^ w.bits - 1)

/-! ### The Format Decomposer -/

/-- 41_format_decomposer.md R68: the sign field is the pattern's top bit, and it is 1 exactly when the signed
reinterpretation of the pattern is negative. -/
def Obligations.SignIsThatOfTheSignedReinterpretation : Prop :=
  ∀ (x : Word64) (s : State), ∃ t₁ r₁ t₂ r₂,
    exec (.decompS x) s = .next t₁ ∧ t₁.response = some r₁ ∧
    exec (.decompD x) s = .next t₂ ∧ t₂.response = some r₂ ∧
    r₁.sign = x.extractLsb' 31 1 ∧ (r₁.sign = 1#1 ↔ (x.extractLsb' 0 32).toInt < 0) ∧
    r₂.sign = x.extractLsb' 63 1 ∧ (r₂.sign = 1#1 ↔ x.toInt < 0)

/-- 41_format_decomposer.md R72: the ranges of the exponent and of `sig`, for every operand. -/
def Obligations.ResultRanges : Prop :=
  ∀ (x : Word64) (s : State), ∃ t₁ r₁ t₂ r₂,
    exec (.decompS x) s = .next t₁ ∧ t₁.response = some r₁ ∧
    exec (.decompD x) s = .next t₂ ∧ t₂.response = some r₂ ∧
    (-127 ≤ exponentOf r₁ ∧ exponentOf r₁ ≤ 128) ∧ (-1023 ≤ exponentOf r₂ ∧ exponentOf r₂ ≤ 1024) ∧
    (0xF81 ≤ r₁.exp.toNat ∨ r₁.exp.toNat ≤ 0x080) ∧ (0xC01 ≤ r₂.exp.toNat ∨ r₂.exp.toNat ≤ 0x400) ∧
    (0x3FF0000000000000 ≤ r₁.sig.toNat ∧ r₁.sig.toNat ≤ 0x3FFFFFFFFFFFFFFF) ∧
    (0x3FF0000000000000 ≤ r₂.sig.toNat ∧ r₂.sig.toNat ≤ 0x3FFFFFFFFFFFFFFF)

/-- 41_format_decomposer.md R73: sign, exponent, mantissa field and significand come from the same formulas for every
pattern; an all-zero exponent field gives -BIAS and an all-one field BIAS + 1, and the mantissa field is decoded with the
leading 1 regardless. -/
def Obligations.NoPatternIsASpecialCase : Prop :=
  ∀ (x : Word64) (s : State), ∃ t₁ r₁ t₂ r₂,
    exec (.decompS x) s = .next t₁ ∧ t₁.response = some r₁ ∧
    exec (.decompD x) s = .next t₂ ∧ t₂.response = some r₂ ∧
    r₁.sign = x.extractLsb' 31 1 ∧ exponentOf r₁ = ((x.extractLsb' 23 8).toNat : Int) - 127 ∧
    r₁.mant.toNat = x.toNat % 2 ^ 23 ∧ r₁.sig = b64 (mantDec .w23 r₁.mant.toNat) ∧
    r₂.sign = x.extractLsb' 63 1 ∧ exponentOf r₂ = ((x.extractLsb' 52 11).toNat : Int) - 1023 ∧
    r₂.mant.toNat = x.toNat % 2 ^ 52 ∧ r₂.sig = b64 (mantDec .w52 r₂.mant.toNat) ∧
    (x.extractLsb' 23 8 = 0#8 → exponentOf r₁ = -127) ∧ (x.extractLsb' 23 8 = 255#8 → exponentOf r₁ = 128) ∧
    (x.extractLsb' 52 11 = 0#11 → exponentOf r₂ = -1023) ∧ (x.extractLsb' 52 11 = 2047#11 → exponentOf r₂ = 1024)

/-- 41_format_decomposer.md R76: for a normalized pattern the response's product is the pattern's value, exactly. -/
def Obligations.NormalizedPatternsAreReconstructed : Prop :=
  ∀ (x : Word64) (s : State), ∃ t₁ r₁ t₂ r₂,
    exec (.decompS x) s = .next t₁ ∧ t₁.response = some r₁ ∧
    exec (.decompD x) s = .next t₂ ∧ t₂.response = some r₂ ∧
    (normalizedSingle (x.extractLsb' 0 32) →
      r₁.value = (-1) ^ r₁.sign.toNat * mantDec .w23 r₁.mant.toNat * 2 ^ exponentOf r₁ ∧
      r₁.value = normalSingleValue (x.extractLsb' 0 32)) ∧
    (normalizedDouble x →
      r₂.value = (-1) ^ r₂.sign.toNat * mantDec .w52 r₂.mant.toNat * 2 ^ exponentOf r₂ ∧
      r₂.value = normalDoubleValue x)

/-- 41_format_decomposer.md R77: a zero or subnormal pattern is decomposed as `±(1 + M·2^-W) × 2^-BIAS`, which is never
its value; an all-one exponent field as `±(1 + M·2^-W) × 2^(BIAS+1)`. -/
def Obligations.NonNormalizedPatternsAreNotReconstructed : Prop :=
  ∀ (x : Word64) (s : State), ∃ t₁ r₁ t₂ r₂,
    exec (.decompS x) s = .next t₁ ∧ t₁.response = some r₁ ∧
    exec (.decompD x) s = .next t₂ ∧ t₂.response = some r₂ ∧
    (x.extractLsb' 23 8 = 0#8 →
      r₁.value = (-1) ^ r₁.sign.toNat * (1 + (r₁.mant.toNat : Rat) / 2 ^ 23) / 2 ^ 127 ∧
      r₁.value ≠ subnormalSingleValue (x.extractLsb' 0 32)) ∧
    (x.extractLsb' 52 11 = 0#11 →
      r₂.value = (-1) ^ r₂.sign.toNat * (1 + (r₂.mant.toNat : Rat) / 2 ^ 52) / 2 ^ 1023 ∧
      r₂.value ≠ subnormalDoubleValue x) ∧
    (x.extractLsb' 23 8 = 255#8 →
      r₁.value = (-1) ^ r₁.sign.toNat * (1 + (r₁.mant.toNat : Rat) / 2 ^ 23) * 2 ^ 128) ∧
    (x.extractLsb' 52 11 = 2047#11 →
      r₂.value = (-1) ^ r₂.sign.toNat * (1 + (r₂.mant.toNat : Rat) / 2 ^ 52) * 2 ^ 1024)

/-- 41_format_decomposer.md R78: the decomposer and the decoder alone agree on `mant` and `sig`. -/
def Obligations.DecomposerAgreesWithTheDecoder : Prop :=
  ∀ (x : Word64) (s : State), ∃ t₁ r₁ t₂ r₂ t₃ r₃ t₄ r₄,
    exec (.decompS x) s = .next t₁ ∧ t₁.response = some r₁ ∧
    exec (.mdec23 ((x.extractLsb' 0 23).setWidth 64)) s = .next t₂ ∧ t₂.response = some r₂ ∧
    exec (.decompD x) s = .next t₃ ∧ t₃.response = some r₃ ∧
    exec (.mdec52 ((x.extractLsb' 0 52).setWidth 64)) s = .next t₄ ∧ t₄.response = some r₄ ∧
    r₁.mant = r₂.mant ∧ r₁.sig = r₂.sig ∧ r₃.mant = r₄.mant ∧ r₃.sig = r₄.sig

/-! ### The machine -/

/-- 30_encoding.md R46: the packed response, every field at its place. -/
def Obligations.PackedResponseHasItsFieldsInPlace : Prop :=
  ∀ r : Response,
    r.pack.extractLsb' 129 64 = r.raw ∧ r.pack.extractLsb' 128 1 = r.sign ∧ r.pack.extractLsb' 116 12 = r.exp ∧
    r.pack.extractLsb' 64 52 = r.mant ∧ r.pack.extractLsb' 0 64 = r.sig ∧
    ∀ w : BitVec 193, (Response.unpack w).pack = w

/-- 10_state.md R25: with nothing in progress, a read faults until the first operation after reset completes; an operation's
response stands on every port once it completes, a read changes nothing, and the ports hold it until the next operation
completes (or a reset). (The premise Inv of the last clause is the model's own invariant, kept by every step.) -/
def Obligations.ResponsePortsHoldTheLastResponse : Prop :=
  (∀ (s : State) (es : List Event), s.running = none → s.events = .read :: es →
    (s.response = none →
      step s = .fault .responseNeverWritten ∧ ∀ p, s.readPort p = .error .responseNeverWritten) ∧
    (∀ r, s.response = some r →
      step s = .next { s with events := es } ∧ ∀ p, s.readPort p = .ok (r.port p)) ∧
    (∀ i, ∃ t, exec i s = .next t ∧ t.response = some (respond i) ∧ t.running = none ∧
      step t = .next { t with events := es })) ∧
  (∀ s t : State, s.Inv → step s = .next t →
    t.response = s.response ∨
    (∃ es, s.events = .reset :: es ∧ t.response = none) ∨
    (∃ i, t.response = some (respond i) ∧ t.running = none ∧
      (s.running = some i ∨ (s.running = none ∧ ∃ r es, s.events = .request r :: es ∧ decode r = i))))

/-- 60_exceptions.md R100: no operation fails; the machine stops in one case only, a read of ports that hold no value
(10_state.md R25), and refuses nothing. -/
def Obligations.OnlyAnEarlyReadStopsTheMachine : Prop :=
  (∀ (i : Instr) (s : State), ∃ t, exec i s = .next t ∧ t.response = some (respond i)) ∧
  (∀ (s : State) (f : Fault), step s = .fault f ↔
    (f = .responseNeverWritten ∧ s.response = none ∧ ∃ es, s.events = .read :: es)) ∧
  (∀ (s : State) (q : Refusal), step s ≠ .refused q)

/-- 70_reset_and_hazards.md R112 to R114: reset leaves nothing in progress and no value on the ports, abandons an
operation in progress, and a read after it faults. -/
def Obligations.ResetEmptiesTheBlock : Prop :=
  State.reset.running = none ∧ State.reset.response = none ∧
  ∀ (s : State) (es : List Event), s.events = .reset :: es →
    ∃ t, step s = .next t ∧ t.running = none ∧ t.response = none ∧
      step { t with events := [.read] } = .fault .responseNeverWritten

/-- 70_reset_and_hazards.md R115: every operation may be issued as the first request after reset. -/
def Obligations.EveryOperationMayComeFirstAfterReset : Prop :=
  ∀ i : Instr, ∃ t, step (State.reset.withFetchWord 72 (encodeWord i).toNat) = .next t ∧
    t.response = some (respond i) ∧ t.running = none ∧ t.events = []

/-- The invariant holds after reset. -/
def Obligations.InvariantHoldsAtReset : Prop := State.reset.Inv

/-- Every step keeps the invariant: an operation in progress stands inside its decoder loop, with the working values
where 40_mantissa_decoder.md R59 says, and the response ports hold no value or the whole response of an operation. -/
def Obligations.StepKeepsTheInvariant : Prop :=
  ∀ s t : State, s.Inv → step s = .next t → t.Inv

/-- 70_reset_and_hazards.md R117: a request presented while an operation is in progress is not accepted until that
operation completes, and then it is. (Inv: the model's own invariant.) -/
def Obligations.RequestHoldsWhileAnOperationIsInProgress : Prop :=
  ∀ (s : State) (i : Instr) (r : Request) (es : List Event), s.Inv → s.running = some i →
    (s.events = .request r :: es →
      ∃ t u, step s = .next t ∧ t.events = s.events ∧ t.running = none ∧ t.response = some (respond i) ∧
        step t = .next u ∧ u.events = es ∧ u.response = some (respond (decode r))) ∧
    (s.events = .accept r :: es →
      ∃ t u, step s = .next t ∧ t.events = s.events ∧ t.running = none ∧ t.response = some (respond i) ∧
        step t = .next u ∧ u.events = es ∧ u.running = some (decode r))

/-- 10_state.md R23, 70_reset_and_hazards.md R119: the operation performed bit by bit (accepted, its W bit steps, its
delivery) ends in exactly the state the one-step form gives. -/
def Obligations.BitSerialRunEqualsTheOneStepForm : Prop :=
  ∀ (s : State) (r : Request) (es : List Event), s.running = none →
    s.events = .accept r :: (List.replicate ((decode r).width.bits + 1) .bitStep ++ es) →
    runSteps ((decode r).width.bits + 2) s = step { s with events := .request r :: es }

/-- 20_memory.md R32: no partial response is visible: while the bit steps run, the ports hold what they held before. -/
def Obligations.NoPartialResponseIsVisible : Prop :=
  ∀ (s : State) (r : Request) (es : List Event) (k : Nat), s.running = none → k ≤ (decode r).width.bits →
    s.events = .accept r :: (List.replicate k .bitStep ++ es) →
    ∃ t, runSteps (k + 1) s = .next t ∧ t.response = s.response ∧ t.running = some (decode r) ∧
      t.decoder.i = k ∧ t.events = es

/-- 70_reset_and_hazards.md R119: every operation completes: from any point of a run, after at most W - i + 1 bit steps,
with the operation's own response. (Inv: the model's own invariant.) -/
def Obligations.EveryOperationCompletes : Prop :=
  ∀ (s : State) (i : Instr) (es : List Event), s.Inv → s.running = some i →
    s.events = List.replicate (bitsLeft i s.decoder + 1) .bitStep ++ es →
    ∃ t, runSteps (bitsLeft i s.decoder + 1) s = .next t ∧ t.running = none ∧
      t.response = some (respond i) ∧ t.events = es

/-- 10_state.md R23: the working values are initialised afresh at the start of a run, and they are not architecturally
visible (nor is the operation in progress, R26): two machines with nothing in progress that look the same go on looking the
same, however their working values and their free values differ, and they have the same operation in progress at every
point. -/
def Obligations.WorkingValuesAreInvisible : Prop :=
  (∀ (s : State) (r : Request) (es : List Event), s.running = none → s.events = .accept r :: es →
    ∃ t, step s = .next t ∧ t.running = some (decode r) ∧ t.decoder = ⟨1, 1 / 2, mantissaOf (decode r), 0⟩ ∧
      t.response = s.response ∧ t.events = es) ∧
  ∀ (s₁ s₂ : State), s₁.running = none → s₂.running = none → s₁.visible = s₂.visible →
    ∀ k, visibleOutcome (runSteps k s₁) = visibleOutcome (runSteps k s₂) ∧
      ∀ t₁ t₂, runSteps k s₁ = .next t₁ → runSteps k s₂ = .next t₂ → t₁.running = t₂.running

/-! ### The reference host and the scripts -/

/-- 45_host_driver.md R82, R95: any argument count but one is a usage error, status 1, with no operation issued; the
status is 0 otherwise. -/
def Obligations.ArgumentCountDecidesTheStatus : Prop :=
  ∀ (p : DriverParams) (args : List Text),
    (args.length ≠ 1 → observe p args = ⟨[], p.usageText, 1⟩ ∧ issuedBy p args = []) ∧
    (args.length = 1 → (observe p args).status = 0)

/-- 45_host_driver.md R84, R93, R97: one invocation's texts, status and operations, for any parameters of the parses; the
error texts are written out. -/
def Obligations.InvocationGivesTheObservation : Prop :=
  ∀ (p : DriverParams) (arg : Text),
    let vS := p.parseS arg
    let vD := p.parseD arg
    let badS := vS.consumed = 0 ∨ vS.rangeError = true ∨ vS.value.extractLsb' 23 8 = 255#8
    let badD := vD.consumed = 0 ∨ vD.rangeError = true ∨ vD.value.extractLsb' 52 11 = 2047#11
    let rS := respond (.decompS (vS.value.setWidth 64))
    let rD := respond (.decompD vD.value)
    let bad : Text := arg ++ [' ', 'b', 'a', 'd', ' ', 'o', 'r', ' ', 'o', 'u', 't', ' ', 'o', 'f', ' ', 'r', 'a', 'n',
      'g', 'e', '\n']
    let errS : Text := ['S', 'i', 'n', 'g', 'l', 'e', ':', '\n', '\t'] ++ bad
    let errD : Text := ['D', 'o', 'u', 'b', 'l', 'e', ':', '\n', '\t'] ++ bad
    (badS → badD → observe p [arg] = ⟨[], errS ++ errD, 0⟩ ∧ issuedBy p [arg] = []) ∧
    (¬ badS → badD → observe p [arg] = ⟨renderSingle rS, errD, 0⟩ ∧
      issuedBy p [arg] = [.decompS (vS.value.setWidth 64)]) ∧
    (badS → ¬ badD → observe p [arg] = ⟨renderDouble rD, errS, 0⟩ ∧ issuedBy p [arg] = [.decompD vD.value]) ∧
    (¬ badS → ¬ badD → observe p [arg] = ⟨renderSingle rS ++ renderDouble rD, [], 0⟩ ∧
      issuedBy p [arg] = [.decompS (vS.value.setWidth 64), .decompD vD.value]) ∧
    (∀ args : List Text, args.length ≠ 1 → observe p args = ⟨[], p.usageText, 1⟩)

/-- 45_host_driver.md R92, with the round trip of 41_format_decomposer.md R67: after the label comes `0x` and exactly 8 (16)
upper-case hex digits, zero-padded, that read back as the very pattern the host issued. -/
def Obligations.HexTextIsTheExactPattern : Prop :=
  (∀ n v : Nat, v < 16 ^ n → ∃ ds : Text, hexText n v = '0' :: 'x' :: ds ∧ ds.length = n ∧ readBase 16 ds = v ∧
    ∀ c ∈ ds, c ∈ ['0', '1', '2', '3', '4', '5', '6', '7', '8', '9', 'A', 'B', 'C', 'D', 'E', 'F']) ∧
  (∀ v : Pattern32, ∃ rest, renderSingle (respond (singleOperation v)) =
    singleLabel ++ ['\n', '\t'] ++ hexText 8 v.toNat ++ ['\n'] ++ rest) ∧
  (∀ v : Pattern64, ∃ rest, renderDouble (respond (doubleOperation v)) =
    doubleLabel ++ ['\n', '\t'] ++ hexText 16 v.toNat ++ ['\n'] ++ rest)

/-- 45_host_driver.md R89: the exact significand rounded to nearest, ties to even, on 8 (17) places, and the digit before
the point is always 1; what stands after it are decimal digits. -/
def Obligations.SignificandTextIsRoundedToNearestEven : Prop :=
  (∀ (places : Nat) (i : Instr),
    let q := normalDoubleValue (respond i).sig
    let n := significandScaled places (respond i).sig
    2 * |(n : Rat) - q * 10 ^ places| ≤ 1 ∧ (2 * |(n : Rat) - q * 10 ^ places| = 1 → n % 2 = 0)) ∧
  (∀ x : Word64,
    let r₁ := respond (.decompS x)
    let r₂ := respond (.decompD x)
    (∃ ds : Text, significandText 8 r₁.sig = '1' :: '.' :: ds ∧ ds.length = 8 ∧
      (∀ c ∈ ds, c ∈ ['0', '1', '2', '3', '4', '5', '6', '7', '8', '9']) ∧
      10 ^ 8 + readBase 10 ds = significandScaled 8 r₁.sig) ∧
    (∃ ds : Text, significandText 17 r₂.sig = '1' :: '.' :: ds ∧ ds.length = 17 ∧
      (∀ c ∈ ds, c ∈ ['0', '1', '2', '3', '4', '5', '6', '7', '8', '9']) ∧
      10 ^ 17 + readBase 10 ds = significandScaled 17 r₂.sig))

/-- 45_host_driver.md R98: for a normalized value the rendered line is a sign character, `1.` with 8 (17) digits,
` * 2^` and the exponent, and the number those give is the value within half a unit of the last digit, times 2^e. -/
def Obligations.RenderedLineReconstructsTheValue : Prop :=
  (∀ v : Pattern32, normalizedSingle v →
    let r := respond (singleOperation v)
    ∃ ds : Text,
      productText 8 r = (if r.sign = 0#1 then '+' else '-') ::
        '1' :: '.' :: (ds ++ [' ', '*', ' ', '2', '^'] ++ intText (exponentOf r)) ∧
      ds.length = 8 ∧ (∀ c ∈ ds, c ∈ ['0', '1', '2', '3', '4', '5', '6', '7', '8', '9']) ∧
      |(-1) ^ r.sign.toNat * (1 + (readBase 10 ds : Rat) / 10 ^ 8) * 2 ^ exponentOf r - normalSingleValue v|
        ≤ 1 / 2 / 10 ^ 8 * 2 ^ exponentOf r) ∧
  (∀ v : Pattern64, normalizedDouble v →
    let r := respond (doubleOperation v)
    ∃ ds : Text,
      productText 17 r = (if r.sign = 0#1 then '+' else '-') ::
        '1' :: '.' :: (ds ++ [' ', '*', ' ', '2', '^'] ++ intText (exponentOf r)) ∧
      ds.length = 17 ∧ (∀ c ∈ ds, c ∈ ['0', '1', '2', '3', '4', '5', '6', '7', '8', '9']) ∧
      |(-1) ^ r.sign.toNat * (1 + (readBase 10 ds : Rat) / 10 ^ 17) * 2 ^ exponentOf r - normalDoubleValue v|
        ≤ 1 / 2 / 10 ^ 17 * 2 ^ exponentOf r)

/-- 45_host_driver.md R91: the exponent text of a natural number is decimal digits alone that read back as that number, with
no leading zero and at least one digit; a negative number has a `-` before the text of its absolute value. -/
def Obligations.ExponentTextIsPlainDecimal : Prop :=
  ∀ n : Nat,
    intText (n : Int) ≠ [] ∧
    (∀ c ∈ intText (n : Int), c ∈ ['0', '1', '2', '3', '4', '5', '6', '7', '8', '9']) ∧
    readBase 10 (intText (n : Int)) = n ∧ ((intText (n : Int)).head? = some '0' → intText (n : Int) = ['0']) ∧
    intText (-((n : Int) + 1)) = '-' :: intText ((n : Int) + 1)

/-- 30_encoding.md R53: an operation written as a script line, alone or followed by a comment, assembles to itself, and to
its request `op ‖ x`. That a blank may stand between the operand and the comment's `;` (the second clause) is the model's
choice (DESIGN CHOICE, log entry 9). -/
def Obligations.ScriptLinesAssembleToTheirOperation : Prop :=
  ∀ (i : Instr) (comment : Text),
    assembleLine (scriptLine i) = .ok i ∧
    assembleLine (scriptLine i ++ ' ' :: ';' :: comment) = .ok i ∧
    assembleRequest (scriptLine i ++ ';' :: comment) = .ok ⟨i.op, i.x⟩

/-- 45_host_driver.md R87, R88, R90: the three lines of a rendering, each ended by a newline: the label, the hex text of
`raw`, and the sign character (always written), the significand, ` * 2^` and the exponent. -/
def Obligations.RenderingHasItsThreeLines : Prop :=
  (∀ r : Response, renderSingle r =
    ['S', 'i', 'n', 'g', 'l', 'e', ':', '\n', '\t'] ++ hexText 8 r.raw.toNat ++ ['\n', '\t'] ++
      (if r.sign = 0#1 then '+' else '-') :: (significandText 8 r.sig ++ [' ', '*', ' ', '2', '^'] ++
        intText r.exp.toInt ++ ['\n'])) ∧
  (∀ r : Response, renderDouble r =
    ['D', 'o', 'u', 'b', 'l', 'e', ':', '\n', '\t'] ++ hexText 16 r.raw.toNat ++ ['\n', '\t'] ++
      (if r.sign = 0#1 then '+' else '-') :: (significandText 17 r.sig ++ [' ', '*', ' ', '2', '^'] ++
        intText r.exp.toInt ++ ['\n']))

/-- 45_host_driver.md R83, with 92_eei_decisions.md D20 and D24: a parse of a number written in the syntax, whatever
characters are left after it, consumes exactly that number, answers what the open conversion gives for its literal, and
signals a range error on overflow, and on a subnormal result or one flushed to zero where PARSE_UNDERFLOW_IS_ERROR. The
details of the syntax are the model's (PRESUMED, log entry 18). -/
def Obligations.ParseReadsANumberOfTheSyntax : Prop :=
  ∀ (p : DriverParams) (n : Spelling) (rest : Text), n.Ok → n.EndsBefore rest →
    let cS := p.single.convert n.literal
    let cD := p.double.convert n.literal
    let nonzero := ∃ c ∈ n.whole ++ n.fraction.getD [], c ≠ '0'
    (p.parseS (n.text ++ rest)).value = cS.value ∧ (p.parseS (n.text ++ rest)).consumed = n.text.length ∧
    ((p.parseS (n.text ++ rest)).rangeError = true ↔ cS.overflow = true ∨ (p.underflowIsError = true ∧
      cS.value.extractLsb' 23 8 = 0#8 ∧ (cS.value.extractLsb' 0 23 ≠ 0#23 ∨ nonzero))) ∧
    (p.parseD (n.text ++ rest)).value = cD.value ∧ (p.parseD (n.text ++ rest)).consumed = n.text.length ∧
    ((p.parseD (n.text ++ rest)).rangeError = true ↔ cD.overflow = true ∨ (p.underflowIsError = true ∧
      cD.value.extractLsb' 52 11 = 0#11 ∧ (cD.value.extractLsb' 0 52 ≠ 0#52 ∨ nonzero)))

/-- 45_host_driver.md R83, R84: a parse consumes no more than the text, and it consumes anything of a finite value only on a
text that begins with a number of the syntax; both parses then consume that number. (PRESUMED and DESIGN CHOICE, log entries 18 and 19, for the
details of the syntax and for texts outside it.) -/
def Obligations.OnlyNumbersOfTheSyntaxPass : Prop :=
  ∀ (p : DriverParams) (t : Text),
    (p.parseS t).consumed ≤ t.length ∧ (p.parseD t).consumed ≤ t.length ∧
    (((p.parseS t).consumed ≠ 0 ∧ (p.parseS t).value.extractLsb' 23 8 ≠ 255#8) ∨
      ((p.parseD t).consumed ≠ 0 ∧ (p.parseD t).value.extractLsb' 52 11 ≠ 2047#11) →
      ∃ (n : Spelling) (rest : Text), n.Ok ∧ n.EndsBefore rest ∧ t = n.text ++ rest ∧
        (p.parseS t).consumed = n.text.length ∧ (p.parseD t).consumed = n.text.length)

/-- The model's choices where the spec gives no rule (DESIGN CHOICE, log entries 10 and 14): a read during an operation is
answered at once from the ports as they stand and leaves the operation going on, and a reset leaves the events after it. -/
def Obligations.ReadsAndResetsDuringAnOperation : Prop :=
  (∀ (s : State) (i : Instr) (es : List Event), s.running = some i → s.events = .read :: es →
    (s.response = none → step s = .fault .responseNeverWritten) ∧
    (s.response ≠ none → step s = .next { s with events := es })) ∧
  (∀ (s : State) (es : List Event), s.events = .reset :: es →
    ∃ t, step s = .next t ∧ t.running = none ∧ t.response = none ∧ t.events = es)
end

