-- ==== Sys2Proof/Laws/Decode.lean ====
section
/-! SUPPORT. Request words as numbers, and the opcode table's mask. -/

namespace Sys2Proof

/-- `REQ = op ‖ x` as a number (30_encoding.md R38). -/
theorem Request.toWord_toNat (r : Request) : r.toWord.toNat = r.op.toNat * 2 ^ 64 + r.x.toNat := by
  rw [Request.toWord, BitVec.toNat_cast, BitVec.toNat_append, ← Nat.shiftLeft_add_eq_or_of_lt r.x.isLt,
    Nat.shiftLeft_eq]

/-- `REQ.op` as a number (30_encoding.md R38). -/
theorem Request.ofWord_op_toNat (w : ReqWord) : (Request.ofWord w).op.toNat = w.toNat / 2 ^ 64 := by
  have := w.isLt
  simp only [Request.ofWord, BitVec.extractLsb'_toNat, Nat.shiftRight_eq_div_pow]
  omega

/-- `REQ.x` as a number (30_encoding.md R38). -/
theorem Request.ofWord_x_toNat (w : ReqWord) : (Request.ofWord w).x.toNat = w.toNat % 2 ^ 64 := by
  simp [Request.ofWord]

@[simp] theorem decode_decompS (x : Word64) : decode ⟨0b00#2, x⟩ = .decompS x := by simp [decode, opKind, opWidth]
@[simp] theorem decode_decompD (x : Word64) : decode ⟨0b01#2, x⟩ = .decompD x := by simp [decode, opKind, opWidth]
@[simp] theorem decode_mdec23 (x : Word64) : decode ⟨0b10#2, x⟩ = .mdec23 x := by simp [decode, opKind, opWidth]
@[simp] theorem decode_mdec52 (x : Word64) : decode ⟨0b11#2, x⟩ = .mdec52 x := by simp [decode, opKind, opWidth]

/-- The table's one mask keeps the two bits of `op` (30_encoding.md R40). -/
theorem opcodeMask_toNat (w : ReqWord) : (w &&& 0x30000000000000000#66).toNat = w.toNat / 2 ^ 64 * 2 ^ 64 := by
  have hw := w.isLt
  have key : w &&& 0x30000000000000000#66 = (w >>> 64) <<< 64 := by
    apply BitVec.eq_of_getLsbD_eq
    intro j hj
    have hm : (0x30000000000000000#66).getLsbD j = decide (64 ≤ j) := by
      revert j
      decide
    rw [BitVec.getLsbD_and, hm]
    by_cases h : j < 64
    · simp [h]
    · have h' : 64 + (j - 64) = j := by omega
      simp [h, h', hj]
      omega
  rw [key]
  simp only [BitVec.toNat_shiftLeft, BitVec.toNat_ushiftRight, Nat.shiftRight_eq_div_pow, Nat.shiftLeft_eq]
  omega

end Sys2Proof
end

