-- ==== Sys2Proof/Laws/State.lean ====
section
/-! SUPPORT. One lemma per field per update of the state, true by rfl. -/

namespace Sys2Proof.Machine

@[simp] theorem State.deliver_response (r : Response) (s : State) : (s.deliver r).response = some r := rfl
@[simp] theorem State.deliver_running (r : Response) (s : State) : (s.deliver r).running = none := rfl
@[simp] theorem State.deliver_events (r : Response) (s : State) : (s.deliver r).events = s.events := rfl
@[simp] theorem State.deliver_freeCount (r : Response) (s : State) : (s.deliver r).freeCount = s.freeCount + 1 := rfl
@[simp] theorem State.deliver_decoder (r : Response) (s : State) :
    (s.deliver r).decoder = unspecifiedDecoder s.freeCount := rfl

@[simp] theorem State.resetBlock_response (s : State) : s.resetBlock.response = none := rfl
@[simp] theorem State.resetBlock_running (s : State) : s.resetBlock.running = none := rfl
@[simp] theorem State.resetBlock_events (s : State) : s.resetBlock.events = s.events := rfl
@[simp] theorem State.resetBlock_freeCount (s : State) : s.resetBlock.freeCount = s.freeCount + 1 := rfl
@[simp] theorem State.resetBlock_decoder (s : State) : s.resetBlock.decoder = unspecifiedDecoder s.freeCount := rfl

@[simp] theorem State.acceptOp_response (i : Instr) (s : State) : (s.acceptOp i).response = s.response := rfl
@[simp] theorem State.acceptOp_running (i : Instr) (s : State) : (s.acceptOp i).running = some i := rfl
@[simp] theorem State.acceptOp_events (i : Instr) (s : State) : (s.acceptOp i).events = s.events := rfl
@[simp] theorem State.acceptOp_freeCount (i : Instr) (s : State) : (s.acceptOp i).freeCount = s.freeCount := rfl
@[simp] theorem State.acceptOp_decoder (i : Instr) (s : State) :
    (s.acceptOp i).decoder = Decoder.start i.width (mantissaOf i) := rfl

@[simp] theorem State.took_response (s : State) : s.took.response = s.response := rfl
@[simp] theorem State.took_running (s : State) : s.took.running = s.running := rfl
@[simp] theorem State.took_events (s : State) : s.took.events = s.events.tail := rfl
@[simp] theorem State.took_freeCount (s : State) : s.took.freeCount = s.freeCount := rfl
@[simp] theorem State.took_decoder (s : State) : s.took.decoder = s.decoder := rfl

@[simp] theorem State.present_response (s : State) (r : Request) : (s.present r).response = s.response := rfl
@[simp] theorem State.present_running (s : State) (r : Request) : (s.present r).running = none := rfl
@[simp] theorem State.present_events (s : State) (r : Request) : (s.present r).events = .request r :: s.events := rfl
@[simp] theorem State.present_freeCount (s : State) (r : Request) : (s.present r).freeCount = s.freeCount := rfl
@[simp] theorem State.present_decoder (s : State) (r : Request) : (s.present r).decoder = s.decoder := rfl

@[simp] theorem State.reset_response : State.reset.response = none := rfl
@[simp] theorem State.reset_running : State.reset.running = none := rfl
@[simp] theorem State.reset_events : State.reset.events = [] := rfl

theorem State.inProgress_eq_false_iff (s : State) : s.inProgress = false ↔ s.running = none := by
  simp [State.inProgress]

theorem State.inProgress_eq_true_iff (s : State) : s.inProgress = true ↔ ∃ i, s.running = some i := by
  simp [State.inProgress, Option.isSome_iff_exists]

end Sys2Proof.Machine
end

