-- ==== Sys2Proof/Laws/Ops.lean ====
section
/-! SUPPORT. One specification lemma per shared operation, and the inversion of a step. -/

namespace Sys2Proof.Machine

/-- Every arm of `exec` delivers its operation's response, from any state. -/
theorem exec_eq (i : Instr) (s : State) : exec i s = .next (s.deliver (respond i)) := by
  cases i <;> rfl

/-- All a bit step can do. -/
theorem State.bitStep_cases (s : State) :
    (s.running = none ∧ s.bitStep = s) ∨
    (∃ i, s.running = some i ∧ s.decoder.i < i.width.bits ∧
      s.bitStep = { s with decoder := Decoder.step i.width s.decoder }) ∨
    (∃ i, s.running = some i ∧ i.width.bits ≤ s.decoder.i ∧
      s.bitStep = s.deliver (serialResponse i s.decoder)) := by
  unfold State.bitStep
  cases h : s.running with
  | none => simp
  | some i =>
    by_cases hi : s.decoder.i < i.width.bits
    · exact .inr (.inl ⟨i, rfl, hi, by simp [hi]⟩)
    · exact .inr (.inr ⟨i, rfl, Nat.le_of_not_lt hi, by simp [hi]⟩)

@[simp] theorem State.bitStep_events (s : State) : s.bitStep.events = s.events := by
  rcases s.bitStep_cases with ⟨-, h⟩ | ⟨i, -, -, h⟩ | ⟨i, -, -, h⟩ <;> simp [h]

/-- Completing with an operation in progress delivers what its remaining bit steps give. -/
theorem State.completeRun_of_running {s : State} {i : Instr} (h : s.running = some i) :
    s.completeRun = s.deliver (serialResponse i (Decoder.steps i.width (bitsLeft i s.decoder) s.decoder)) := by
  simp [State.completeRun, h]

/-- Completing with nothing in progress does nothing. -/
theorem State.completeRun_of_idle {s : State} (h : s.running = none) : s.completeRun = s := by
  simp [State.completeRun, h]

@[simp] theorem State.completeRun_events (s : State) : s.completeRun.events = s.events := by
  cases h : s.running with
  | none => simp [State.completeRun_of_idle h]
  | some i => simp [State.completeRun_of_running h]

@[simp] theorem State.completeRun_running (s : State) : s.completeRun.running = none := by
  cases h : s.running with
  | none => simp [State.completeRun_of_idle h, h]
  | some i => simp [State.completeRun_of_running h]

/-- What a read answers. -/
theorem State.readResponse_eq (s : State) :
    (s.response = none ∧ s.readResponse = .error .responseNeverWritten) ∨
    (∃ r, s.response = some r ∧ s.readResponse = .ok r) := by
  cases h : s.response <;> simp [State.readResponse, h]

/-- A step with an operation in progress and a request, or nothing, coming next: the operation completes. -/
theorem step_completes {s : State} (h : s.events = [] ∨
    (s.inProgress = true ∧ ∃ r es, s.events = .request r :: es ∨ s.events = .accept r :: es)) :
    step s = .next s.completeRun := by
  rcases h with h | ⟨hp, r, es, h | h⟩ <;> simp [step, fetch, *]

/-- A request presented with nothing in progress is performed. -/
theorem step_request {s : State} {r : Request} {es : List Event} (hr : s.running = none)
    (h : s.events = .request r :: es) : step s = exec (decode r) s.took := by
  have hp := (s.inProgress_eq_false_iff).mpr hr
  simp [step, fetch, h, hp]

/-- A request accepted with nothing in progress starts. -/
theorem step_accept {s : State} {r : Request} {es : List Event} (hr : s.running = none)
    (h : s.events = .accept r :: es) : step s = .next (s.took.acceptOp (decode r)) := by
  have hp := (s.inProgress_eq_false_iff).mpr hr
  simp [step, fetch, h, hp]

theorem step_bitStep {s : State} {es : List Event} (h : s.events = .bitStep :: es) :
    step s = .next s.took.bitStep := by
  simp [step, fetch, h]

theorem step_read_none {s : State} {es : List Event} (h : s.events = .read :: es) (hr : s.response = none) :
    step s = .fault .responseNeverWritten := by
  simp [step, fetch, h, State.readResponse, hr]

theorem step_read_some {s : State} {es : List Event} {r : Response} (h : s.events = .read :: es)
    (hr : s.response = some r) : step s = .next s.took := by
  simp [step, fetch, h, State.readResponse, hr]

theorem step_reset {s : State} {es : List Event} (h : s.events = .reset :: es) :
    step s = .next s.took.resetBlock := by
  simp [step, fetch, h]

/-- All a step can do, by the event that comes next. -/
theorem step_inversion (s : State) :
    ((s.events = [] ∨ (s.inProgress = true ∧ ∃ r es, s.events = .request r :: es ∨ s.events = .accept r :: es)) ∧
      step s = .next s.completeRun) ∨
    (∃ r es, s.running = none ∧ s.events = .request r :: es ∧
      step s = .next (s.took.deliver (respond (decode r)))) ∨
    (∃ r es, s.running = none ∧ s.events = .accept r :: es ∧ step s = .next (s.took.acceptOp (decode r))) ∨
    (∃ es, s.events = .bitStep :: es ∧ step s = .next s.took.bitStep) ∨
    (∃ es, s.events = .read :: es ∧ s.response = none ∧ step s = .fault .responseNeverWritten) ∨
    (∃ es r, s.events = .read :: es ∧ s.response = some r ∧ step s = .next s.took) ∨
    (∃ es, s.events = .reset :: es ∧ step s = .next s.took.resetBlock) := by
  cases he : s.events with
  | nil => exact .inl ⟨.inl rfl, step_completes (.inl he)⟩
  | cons e es =>
    cases e with
    | request r =>
      cases hr : s.running with
      | none => exact .inr (.inl ⟨r, es, rfl, rfl, (step_request hr he).trans (exec_eq _ _)⟩)
      | some i =>
        have hp : s.inProgress = true := s.inProgress_eq_true_iff.mpr ⟨i, hr⟩
        exact .inl ⟨.inr ⟨hp, r, es, .inl rfl⟩, step_completes (.inr ⟨hp, r, es, .inl he⟩)⟩
    | accept r =>
      cases hr : s.running with
      | none => exact .inr (.inr (.inl ⟨r, es, rfl, rfl, step_accept hr he⟩))
      | some i =>
        have hp : s.inProgress = true := s.inProgress_eq_true_iff.mpr ⟨i, hr⟩
        exact .inl ⟨.inr ⟨hp, r, es, .inr rfl⟩, step_completes (.inr ⟨hp, r, es, .inr he⟩)⟩
    | bitStep => exact .inr (.inr (.inr (.inl ⟨es, rfl, step_bitStep he⟩)))
    | read =>
      cases hr : s.response with
      | none => exact .inr (.inr (.inr (.inr (.inl ⟨es, rfl, rfl, step_read_none he hr⟩))))
      | some r => exact .inr (.inr (.inr (.inr (.inr (.inl ⟨es, r, rfl, rfl, step_read_some he hr⟩)))))
    | reset => exact .inr (.inr (.inr (.inr (.inr (.inr ⟨es, rfl, step_reset he⟩)))))

end Sys2Proof.Machine
end

