-- ==== Sys2Proof/Laws/Fields.lean ====
section
/-! SUPPORT. Operand slices, result fields and the decoder's pattern as numbers. -/

namespace Sys2Proof

@[simp] theorem Width.bits_w23 : Width.w23.bits = 23 := rfl
@[simp] theorem Width.bits_w52 : Width.w52.bits = 52 := rfl

theorem Width.bits_le (w : Width) : w.bits ≤ 52 := by cases w <;> simp

theorem Width.bits_pos (w : Width) : 0 < w.bits := by cases w <;> simp

end Sys2Proof

namespace Sys2Proof.Machine

@[simp] theorem singlePattern_toNat (x : Word64) : (singlePattern x).toNat = x.toNat % 2 ^ 32 := by
  simp [singlePattern]

@[simp] theorem operandField23_toNat (x : Word64) : (operandField23 x).toNat = x.toNat % 2 ^ 23 := by
  simp [operandField23]

@[simp] theorem operandField52_toNat (x : Word64) : (operandField52 x).toNat = x.toNat % 2 ^ 52 := by
  simp [operandField52]

@[simp] theorem singleSign_toNat (p : Pattern32) : (singleSign p).toNat = p.toNat / 2 ^ 31 := by
  have := p.isLt
  simp [singleSign, Nat.shiftRight_eq_div_pow]
  omega

@[simp] theorem singleExpField_toNat (p : Pattern32) : (singleExpField p).toNat = p.toNat / 2 ^ 23 % 2 ^ 8 := by
  simp [singleExpField, Nat.shiftRight_eq_div_pow]

@[simp] theorem singleMantField_toNat (p : Pattern32) : (singleMantField p).toNat = p.toNat % 2 ^ 23 := by
  simp [singleMantField]

@[simp] theorem doubleSign_toNat (p : Pattern64) : (doubleSign p).toNat = p.toNat / 2 ^ 63 := by
  have := p.isLt
  simp [doubleSign, Nat.shiftRight_eq_div_pow]
  omega

@[simp] theorem doubleExpField_toNat (p : Pattern64) : (doubleExpField p).toNat = p.toNat / 2 ^ 52 % 2 ^ 11 := by
  simp [doubleExpField, Nat.shiftRight_eq_div_pow]

@[simp] theorem doubleMantField_toNat (p : Pattern64) : (doubleMantField p).toNat = p.toNat % 2 ^ 52 := by
  simp [doubleMantField]

/-- The 12-bit pattern holds every exponent of both formats without wrapping (30_encoding.md R47). -/
theorem twos12_toInt {e : Int} (h₁ : -2048 ≤ e) (h₂ : e < 2048) : (twos12 e).toInt = e := by
  simp only [twos12, BitVec.toInt_ofInt]
  rw [Int.bmod_eq_of_le] <;> omega

/-- The low bits as a number (40_mantissa_decoder.md R56). -/
theorem lowBits_toNat (w : Width) (m : Field52) : (lowBits w m).toNat = m.toNat % 2 ^ w.bits := by
  have := m.isLt
  cases w
  · simp [lowBits]
    omega
  · simp [lowBits]
    omega

/-- An or with 0x3FF0_0000_0000_0000 puts a field below 2^52 beside the exponent field (30_encoding.md R49). -/
theorem one_or_field {f : BitVec 64} (h : f.toNat < 2 ^ 52) :
    (0x3FF0000000000000#64 ||| f).toNat = 0x3FF0000000000000 + f.toNat := by
  have := Nat.two_pow_add_eq_or_of_lt h 0x3FF
  simp only [BitVec.toNat_or, BitVec.toNat_ofNat]
  norm_num at this ⊢
  rw [← this]

/-- The delivered pattern as a number (40_mantissa_decoder.md R60). -/
theorem significandPattern_toNat (w : Width) (m : Field52) :
    (significandPattern w m).toNat = 0x3FF0000000000000 + m.toNat % 2 ^ w.bits * 2 ^ (52 - w.bits) := by
  have hm := m.isLt
  have key : ((lowBits w m).setWidth 64 <<< (52 - w.bits)).toNat = m.toNat % 2 ^ w.bits * 2 ^ (52 - w.bits) := by
    rw [BitVec.toNat_shiftLeft, BitVec.toNat_setWidth, lowBits_toNat, Nat.shiftLeft_eq]
    cases w <;> simp only [Width.bits_w23, Width.bits_w52] <;> omega
  rw [significandPattern, one_or_field, key]
  rw [key]
  cases w <;> simp only [Width.bits_w23, Width.bits_w52] <;> omega

end Sys2Proof.Machine
end

