-- ==== Sys2Proof/Laws/Parse.lean ====
section
/-! SUPPORT. The host's parse, one lemma per part of its scanner: which characters each class holds, and what each part
takes from a text. -/

namespace Sys2Proof.Machine

/-- A property of characters holds of all if it holds of the 128 ASCII ones and of all others. -/
theorem char_cases {P : Char → Prop} (ascii : ∀ n < 128, P (Char.ofNat n)) (other : ∀ c : Char, 128 ≤ c.toNat → P c)
    (c : Char) : P c := by
  by_cases h : c.toNat < 128
  · simpa using ascii _ h
  · exact other c (by omega)

/-- A character outside ASCII is in no list of ASCII characters. -/
theorem not_mem_of_ge {c : Char} (h : 128 ≤ c.toNat) {l : List Char} (hl : l.all (·.toNat < 128) = true) : c ∉ l := fun hc => by
  have := List.all_eq_true.1 hl c hc
  simp only [decide_eq_true_eq] at this
  omega

theorem upper_of_ge {c : Char} (h : 128 ≤ c.toNat) : upper c = c := by
  simp only [upper]
  rw [if_neg (by omega)]

theorem isDecimal_iff (c : Char) : isDecimal c = true ↔ c ∈ decimalDigits := by
  revert c
  refine char_cases (by decide +kernel) fun c h => ?_
  have := not_mem_of_ge h (l := decimalDigits) (by decide +kernel)
  simp only [this, isDecimal, iff_false, Bool.and_eq_true, decide_eq_true_eq]
  omega

theorem isHex_iff (c : Char) : isHex c = true ↔ c ∈ hexDigits := by
  revert c
  refine char_cases (by decide +kernel) fun c h => ?_
  have := not_mem_of_ge h (l := hexDigits) (by decide +kernel)
  simp only [this, iff_false, isHex, hexValue, upper_of_ge h]
  rw [if_neg (by omega), if_neg (by omega)]
  simp

theorem isSpace_iff (c : Char) :
    isSpace c = true ↔ c ∈ [' ', '\t', '\n', Char.ofNat 11, Char.ofNat 12, '\r'] := by
  revert c
  refine char_cases (by decide +kernel) fun c h => ?_
  have h₁ := not_mem_of_ge h (l := [' ', '\t', '\n', Char.ofNat 11, Char.ofNat 12, '\r']) (by decide +kernel)
  simp only [h₁, iff_false, isSpace, Bool.or_eq_true, Bool.and_eq_true, decide_eq_true_eq, beq_iff_eq]
  rintro (rfl | h₂)
  · exact h₁ (by simp)
  · omega

theorem upper_eq_iff {d e : Char} (ascii : ∀ n < 128, (upper (Char.ofNat n) = d ↔ Char.ofNat n = e ∨ Char.ofNat n = d))
    (hd : d.toNat < 128) (he : e.toNat < 128) (c : Char) : upper c = d ↔ c = e ∨ c = d := by
  revert c
  refine char_cases ascii fun c h => ?_
  have h₁ := not_mem_of_ge h (l := [e, d]) (by simp [hd, he])
  simp only [List.mem_cons, List.not_mem_nil, or_false, not_or] at h₁
  simp [upper_of_ge h, h₁.1, h₁.2]

theorem upper_eq_X (c : Char) : upper c = 'X' ↔ c = 'x' ∨ c = 'X' := upper_eq_iff (by decide +kernel) (by decide) (by decide) c
theorem upper_eq_P (c : Char) : upper c = 'P' ↔ c = 'p' ∨ c = 'P' := upper_eq_iff (by decide +kernel) (by decide) (by decide) c
theorem upper_eq_E (c : Char) : upper c = 'E' ↔ c = 'e' ∨ c = 'E' := upper_eq_iff (by decide +kernel) (by decide) (by decide) c

/-- A text is split by a class where its characters leave the class. -/
theorem takeWhile_of_split {p : Char → Bool} {a b : Text} (ha : ∀ c ∈ a, p c = true)
    (hb : ∀ c u, b = c :: u → p c = false) : (a ++ b).takeWhile p = a ∧ (a ++ b).dropWhile p = b := by
  rw [List.takeWhile_append_of_pos ha, List.dropWhile_append_of_pos ha]
  cases b with
  | nil => simp
  | cons c u => simp [hb c u rfl]

/-- And every text is so split. -/
theorem split_of_takeWhile (p : Char → Bool) (t : Text) : ∃ a b : Text, t = a ++ b ∧ t.takeWhile p = a ∧ t.dropWhile p = b ∧
    (∀ c ∈ a, p c = true) ∧ ∀ c u, b = c :: u → p c = false := by
  refine ⟨_, _, (List.takeWhile_append_dropWhile (p := p) (l := t)).symm, rfl, rfl,
    fun c hc => List.mem_takeWhile_imp hc, fun c u h => ?_⟩
  have := List.head?_dropWhile_not p t
  rw [h] at this
  simpa using this

theorem takeSign_cases (t : Text) : ∃ (sg : Option Char) (u : Text), t = sg.toList ++ u ∧
    (∀ c, sg = some c → c = '+' ∨ c = '-') ∧ takeSign t = (sg == some '-', u) := by
  unfold takeSign
  split
  · exact ⟨some '-', _, rfl, by simp, by simp⟩
  · exact ⟨some '+', _, rfl, by simp, by simp⟩
  · exact ⟨none, _, rfl, by simp, by simp⟩

theorem takeSign_append {sg : Option Char} (u : Text) (hs : ∀ c, sg = some c → c = '+' ∨ c = '-')
    (hu : ∀ c v, u = c :: v → c ≠ '+' ∧ c ≠ '-') : takeSign (sg.toList ++ u) = (sg == some '-', u) := by
  cases sg with
  | some c => rcases hs c rfl with rfl | rfl <;> rfl
  | none =>
    cases u with
    | nil => rfl
    | cons c v =>
      obtain ⟨h₁, h₂⟩ := hu c v rfl
      simp only [Option.toList_none, List.nil_append]
      unfold takeSign
      split <;> simp_all

/-- The significand a text begins with is taken off. -/
theorem takeSignificand_append {digit : Char → Bool} (hp : digit '.' = false) {whole : Text} {fraction : Option Text}
    {u : Text} (hd : ∀ c ∈ whole ++ fraction.getD [], digit c = true) (hne : whole ++ fraction.getD [] ≠ [])
    (hu : ∀ c v, u = c :: v → digit c = false) (hpt : fraction = none → ∀ v, u ≠ '.' :: v) :
    takeSignificand digit (whole ++ (fractionText fraction ++ u)) = some (whole, fraction.getD [], u) := by
  have hw : ∀ c ∈ whole, digit c = true := fun c hc => hd c (by simp [hc])
  cases fraction with
  | none =>
    obtain ⟨h₁, h₂⟩ := takeWhile_of_split hw hu
    simp only [Option.getD_none, List.append_nil] at hne
    simp only [takeSignificand, fractionText, List.nil_append, h₁, h₂]
    split
    · exact absurd rfl (hpt rfl _)
    · simp [hne]
  | some f =>
    obtain ⟨h₁, h₂⟩ := takeWhile_of_split (b := '.' :: (f ++ u)) hw (by simp [hp])
    obtain ⟨h₃, h₄⟩ := takeWhile_of_split (a := f) (fun c hc => hd c (by simp [hc])) hu
    simp only [takeSignificand, fractionText, List.cons_append, h₁, h₂, h₃, h₄, Option.getD_some]
    rw [if_neg (by simpa using hne)]

/-- What a taken significand was. -/
theorem takeSignificand_inversion {digit : Char → Bool} {t whole f u : Text}
    (h : takeSignificand digit t = some (whole, f, u)) : ∃ fraction : Option Text, f = fraction.getD [] ∧
      t = whole ++ (fractionText fraction ++ u) ∧ (∀ c ∈ whole ++ f, digit c = true) ∧ whole ++ f ≠ [] ∧
      (∀ c v, u = c :: v → digit c = false) ∧ (fraction = none → ∀ v, u ≠ '.' :: v) := by
  obtain ⟨a, b, rfl, h₁, h₂, ha, hb⟩ := split_of_takeWhile digit t
  simp only [takeSignificand, h₁, h₂] at h
  split at h
  · next v =>
    obtain ⟨f', u', rfl, h₃, h₄, hf, hu⟩ := split_of_takeWhile digit v
    simp only [h₃, h₄] at h
    split at h
    · cases h
    · next hne =>
      cases h
      refine ⟨some f, rfl, by simp [fractionText], ?_, by simpa using hne, hu, by simp⟩
      simp only [List.mem_append]
      rintro c (hc | hc)
      exacts [ha c hc, hf c hc]
  · next hpt =>
    split at h
    · cases h
    · next hne =>
      cases h
      exact ⟨none, rfl, rfl, by simpa using ha, by simpa using hne, hb, fun _ v => hpt v⟩

/-- With no digit to follow there is no significand. -/
theorem takeSignificand_eq_none {digit : Char → Bool} {t : Text} (h₁ : ∀ c v, t = c :: v → digit c = false)
    (h₂ : ∀ c v, t = '.' :: c :: v → digit c = false) : takeSignificand digit t = none := by
  obtain ⟨h₃, h₄⟩ := takeWhile_of_split (a := []) (by simp) h₁
  simp only [List.nil_append] at h₃ h₄
  simp only [takeSignificand, h₃, h₄]
  split
  · next v =>
    obtain ⟨h₅, -⟩ := takeWhile_of_split (a := []) (b := v) (by simp) fun c w hv => h₂ c w (by rw [hv])
    simp only [List.nil_append] at h₅
    simp [h₅]
  · rfl

/-- An exponent a text begins with is taken off. -/
theorem takeExponent_append {mark : Char} (e : ExponentSpelling) {u : Text} (hm : upper e.mark = mark)
    (hs : ∀ c, e.sign = some c → c = '+' ∨ c = '-') (hne : e.digits ≠ []) (hd : ∀ c ∈ e.digits, c ∈ decimalDigits)
    (hu : ∀ c v, u = c :: v → c ∉ decimalDigits) :
    takeExponent mark (exponentText (some e) ++ u) = (exponentValue (some e), u) := by
  obtain ⟨h₁, h₂⟩ := takeWhile_of_split (p := isDecimal) (a := e.digits) (fun c hc => (isDecimal_iff c).2 (hd c hc))
    fun c v h => by
      rw [← Bool.not_eq_true, isDecimal_iff]
      exact hu c v h
  have hsg : takeSign (e.sign.toList ++ (e.digits ++ u)) = (e.sign == some '-', e.digits ++ u) := by
    refine takeSign_append _ hs fun c v h => ?_
    have hc : c ∈ decimalDigits := by
      cases hds : e.digits with
      | nil => exact absurd hds hne
      | cons d ds =>
        rw [hds, List.cons_append] at h
        injection h with h _
        exact h ▸ hd d (by simp [hds])
    constructor <;> rintro rfl <;> revert hc <;> decide
  simp only [exponentText, List.cons_append, List.append_assoc, takeExponent, hsg, h₁, h₂, hm]
  rw [if_pos (by simpa using hne)]
  simp [exponentValue]

/-- A text that begins with no exponent is left as it is. -/
theorem takeExponent_eq_none {mark : Char} {u : Text} (h : ∀ m (sg : Option Char) d v, u = m :: (sg.toList ++ d :: v) →
    upper m = mark → (∀ c, sg = some c → c = '+' ∨ c = '-') → d ∉ decimalDigits) : takeExponent mark u = (0, u) := by
  cases u with
  | nil => rfl
  | cons m u =>
    obtain ⟨sg, v, rfl, hs, hsg⟩ := takeSign_cases u
    simp only [takeExponent, hsg]
    split
    · next hc =>
      simp only [Bool.and_eq_true, beq_iff_eq, Bool.not_eq_true', List.isEmpty_eq_false_iff] at hc
      cases v with
      | nil => simp at hc
      | cons d v =>
        have := h m sg d v rfl hc.1 hs
        rw [← isDecimal_iff, Bool.not_eq_true] at this
        simp [this] at hc
    · rfl

/-- What a taken exponent was. -/
theorem takeExponent_inversion (mark : Char) (t : Text) : ∃ (e : Option ExponentSpelling) (u : Text),
    takeExponent mark t = (exponentValue e, u) ∧ t = exponentText e ++ u ∧
    (∀ s, e = some s → upper s.mark = mark ∧ (∀ c, s.sign = some c → c = '+' ∨ c = '-') ∧ s.digits ≠ [] ∧
      ∀ c ∈ s.digits, c ∈ decimalDigits) ∧
    (e ≠ none → ∀ c v, u = c :: v → c ∉ decimalDigits) ∧
    (e = none → ∀ m (sg : Option Char) d v, u = m :: (sg.toList ++ d :: v) → upper m = mark →
      (∀ c, sg = some c → c = '+' ∨ c = '-') → d ∉ decimalDigits) := by
  by_cases h : ∀ m (sg : Option Char) d v, t = m :: (sg.toList ++ d :: v) → upper m = mark →
      (∀ c, sg = some c → c = '+' ∨ c = '-') → d ∉ decimalDigits
  · exact ⟨none, t, takeExponent_eq_none h, rfl, by simp, by simp, fun _ => h⟩
  · push Not at h
    obtain ⟨m, sg, d, v, rfl, hm, hs, hd⟩ := h
    obtain ⟨a, b, hab, -, -, ha, hb⟩ := split_of_takeWhile isDecimal (d :: v)
    have hne : a ≠ [] := by
      rintro rfl
      have := hb d v (by simpa using hab.symm)
      rw [← Bool.not_eq_true, isDecimal_iff] at this
      exact this hd
    have had : ∀ c ∈ a, c ∈ decimalDigits := fun c hc => (isDecimal_iff c).1 (ha c hc)
    have hbd : ∀ c w, b = c :: w → c ∉ decimalDigits := fun c w hw => by
      rw [← isDecimal_iff, hb c w hw]
      simp
    refine ⟨some ⟨m, sg, a⟩, b, ?_, by simp [exponentText, hab], ?_, fun _ => hbd, by simp⟩
    · rw [hab, ← takeExponent_append ⟨m, sg, a⟩ hm hs hne had hbd]
      simp [exponentText]
    · rintro s hs'
      cases hs'
      exact ⟨hm, hs, hne, had⟩

/-- A pattern made non-finite has an exponent field of all ones. -/
theorem singleFormat_nonFinite (v : Pattern32) : singleExpField (singleFormat.nonFinite v) = 255#8 := by
  simp only [singleFormat, singleExpField]
  apply BitVec.eq_of_getLsbD_eq
  intro i hi
  have : 23 + i < 8 + 23 := by omega
  rw [BitVec.getLsbD_extractLsb', BitVec.getLsbD_append, BitVec.getLsbD_append]
  simp [hi, this]

theorem doubleFormat_nonFinite (v : Pattern64) : doubleExpField (doubleFormat.nonFinite v) = 2047#11 := by
  simp only [doubleFormat, doubleExpField]
  apply BitVec.eq_of_getLsbD_eq
  intro i hi
  have : 52 + i < 11 + 52 := by omega
  rw [BitVec.getLsbD_extractLsb', BitVec.getLsbD_append, BitVec.getLsbD_append]
  simp [hi, this]

end Sys2Proof.Machine
end

