-- ==== Sys2Proof/Laws/PerInstr.lean ====
section
/-! SUPPORT. Statements made per operation. -/

namespace Sys2Proof.Laws

/-- An operation's own request word fits its own row of the opcode table, whatever its operand (30_encoding.md R40). -/
def RowFits.Statement (i : Instr) : Prop := i.row.fits (encodeWord i) = true

theorem RowFits.of_code (i : Instr) (hm : i.row.mask = 0x30000000000000000#66)
    (hp : i.row.pattern.toNat = i.op.toNat * 2 ^ 64) : RowFits.Statement i := by
  have hx := i.x.isLt
  rw [RowFits.Statement, OpcodeRow.fits, hm, beq_iff_eq, ← BitVec.toNat_inj, opcodeMask_toNat, hp, encodeWord,
    Request.toWord_toNat]
  simp only [encode]
  omega

theorem RowFits.decompS (x : Word64) : RowFits.Statement (.decompS x) :=
  RowFits.of_code _ rfl (by simp [Instr.row, Instr.op])
theorem RowFits.decompD (x : Word64) : RowFits.Statement (.decompD x) :=
  RowFits.of_code _ rfl (by simp [Instr.row, Instr.op])
theorem RowFits.mdec23 (x : Word64) : RowFits.Statement (.mdec23 x) :=
  RowFits.of_code _ rfl (by simp [Instr.row, Instr.op])
theorem RowFits.mdec52 (x : Word64) : RowFits.Statement (.mdec52 x) :=
  RowFits.of_code _ rfl (by simp [Instr.row, Instr.op])

end Sys2Proof.Laws
end

