-- ==== Sys2Proof/Laws/Render.lean ====
section
/-! SUPPORT. The host's texts part by part. Cite these instead of unfolding a rendering whole: the kernel would otherwise
evaluate digit texts of numbers it does not know. -/

namespace Sys2Proof.Machine

theorem labelled_two (label a b : Text) :
    labelled label [a, b] = label ++ ['\n', '\t'] ++ a ++ ['\n', '\t'] ++ (b ++ ['\n']) := by
  simp [labelled]

theorem productText_eq (places : Nat) (r : Response) :
    productText places r = (if r.sign = 0#1 then '+' else '-') ::
      (significandText places r.sig ++ [' ', '*', ' ', '2', '^'] ++ intText r.exp.toInt) := by
  rw [productText, signChar, exponentOf]

/-- The last line of a rendering after its label and hex text, regrouped; the parts are variables, so nothing is evaluated. -/
theorem rendering_regroup (l h s e : Text) (c : Char) :
    l ++ ['\n', '\t'] ++ h ++ ['\n', '\t'] ++ ((c :: (s ++ [' ', '*', ' ', '2', '^'] ++ e)) ++ ['\n']) =
      (l ++ ['\n', '\t']) ++ h ++ ['\n', '\t'] ++ c :: (s ++ [' ', '*', ' ', '2', '^'] ++ e ++ ['\n']) := by
  simp only [List.cons_append, List.append_assoc]

theorem renderSingle_eq (r : Response) :
    renderSingle r = singleLabel ++ ['\n', '\t'] ++ hexText 8 r.raw.toNat ++ ['\n', '\t'] ++ (productText 8 r ++ ['\n']) := by
  rw [renderSingle, labelled_two]

theorem renderDouble_eq (r : Response) :
    renderDouble r = doubleLabel ++ ['\n', '\t'] ++ hexText 16 r.raw.toNat ++ ['\n', '\t'] ++
      (productText 17 r ++ ['\n']) := by
  rw [renderDouble, labelled_two]

end Sys2Proof.Machine
end

