-- ==== Sys2Proof/Laws/Run.lean ====
section
/-! SUPPORT. Runs of several steps. -/

namespace Sys2Proof.Machine

@[simp] theorem runSteps_zero (s : State) : runSteps 0 s = .next s := rfl

/-- A run goes on after a step that answers a next state. -/
theorem runSteps_succ_next {k : Nat} {s t : State} (h : step s = .next t) : runSteps (k + 1) s = runSteps k t := by
  simp [runSteps, h]

/-- A run stops with a step that faults. -/
theorem runSteps_succ_fault {k : Nat} {s : State} {f : Fault} (h : step s = .fault f) :
    runSteps (k + 1) s = .fault f := by
  simp [runSteps, h]

theorem runSteps_one (s : State) : runSteps 1 s = step s := by
  cases h : step s <;> simp [runSteps, h]

/-- A run of `a + b` steps is a run of `a` steps and then a run of `b`. -/
theorem runSteps_add {a b : Nat} {s t : State} (h : runSteps a s = .next t) : runSteps (a + b) s = runSteps b t := by
  induction a generalizing s with
  | zero =>
    obtain rfl : s = t := by simpa using h
    simp
  | succ a ih =>
    rw [Nat.add_right_comm]
    cases hs : step s with
    | next u =>
      rw [runSteps_succ_next hs] at h
      rw [runSteps_succ_next hs, ih h]
    | fault f => simp [runSteps, hs] at h
    | refused r => simp [runSteps, hs] at h

theorem coreRun_succ_next (M : Host.Core) {k : Nat} {s t : M.State} (h : M.step s = .next t) :
    M.run (k + 1) s = M.run k t := by
  simp [Host.Core.run, h]

theorem coreRun_succ_fault (M : Host.Core) {k : Nat} {s : M.State} {f : M.Fault} (h : M.step s = .fault f) :
    M.run (k + 1) s = .fault f := by
  simp [Host.Core.run, h]

theorem coreRun_succ_refused (M : Host.Core) {k : Nat} {s : M.State} {r : M.Refusal} (h : M.step s = .refused r) :
    M.run (k + 1) s = .refused r := by
  simp [Host.Core.run, h]

/-- The runs of this file are the host's runs of the machine. -/
theorem runSteps_eq_core_run (k : Nat) (s : State) : runSteps k s = Host.Core.run Sys2Proof.core k s := by
  induction k generalizing s with
  | zero => rfl
  | succ k ih =>
    cases h : step s with
    | next t =>
      rw [runSteps_succ_next h]
      exact (ih t).trans (coreRun_succ_next Sys2Proof.core h).symm
    | fault f =>
      rw [runSteps_succ_fault h]
      exact (coreRun_succ_fault Sys2Proof.core h).symm
    | refused r =>
      have : runSteps (k + 1) s = .refused r := by simp [runSteps, h]
      exact this.trans (coreRun_succ_refused Sys2Proof.core h).symm

end Sys2Proof.Machine
end

