-- ==== Sys2Proof/Laws/Serial.lean ====
section
/-! SUPPORT. The bit-serial decoder: its steps in a row, its counter, and the field a run starts from. -/

namespace Sys2Proof.Machine

@[simp] theorem Decoder.start_acc (w : Width) (m : Field52) : (Decoder.start w m).acc = 1 := rfl
@[simp] theorem Decoder.start_wt (w : Width) (m : Field52) : (Decoder.start w m).wt = 1 / 2 := rfl
@[simp] theorem Decoder.start_sh (w : Width) (m : Field52) : (Decoder.start w m).sh = lowBits w m := rfl
@[simp] theorem Decoder.start_i (w : Width) (m : Field52) : (Decoder.start w m).i = 0 := rfl

@[simp] theorem Decoder.step_wt (w : Width) (d : Decoder) : (Decoder.step w d).wt = d.wt / 2 := rfl
@[simp] theorem Decoder.step_sh (w : Width) (d : Decoder) : (Decoder.step w d).sh = lowBits w (d.sh <<< 1) := rfl
@[simp] theorem Decoder.step_i (w : Width) (d : Decoder) : (Decoder.step w d).i = d.i + 1 := rfl

/-- The last of several passes. -/
theorem Decoder.steps_succ (w : Width) (k : Nat) (d : Decoder) :
    Decoder.steps w (k + 1) d = Decoder.step w (Decoder.steps w k d) := by
  induction k generalizing d with
  | zero => rfl
  | succ k ih =>
    rw [Decoder.steps, ih]
    rfl

@[simp] theorem Decoder.steps_i (w : Width) (k : Nat) (d : Decoder) : (Decoder.steps w k d).i = d.i + k := by
  induction k with
  | zero => rfl
  | succ k ih =>
    rw [Decoder.steps_succ, Decoder.step_i, ih]
    omega

/-- Every operation gives the decoder a field of its own width. -/
theorem mantissaOf_lt (i : Instr) : (mantissaOf i).toNat < 2 ^ i.width.bits := by
  cases i with
  | decompS x =>
    have := (singleMantField (singlePattern x)).isLt
    simp only [mantissaOf, BitVec.toNat_setWidth, Instr.width, Width.bits_w23]
    omega
  | decompD x => exact (mantissaOf _).isLt
  | mdec23 x =>
    have := (operandField23 x).isLt
    simp only [mantissaOf, BitVec.toNat_setWidth, Instr.width, Width.bits_w23]
    omega
  | mdec52 x => exact (mantissaOf _).isLt

@[simp] theorem lowBits_mantissaOf (i : Instr) : lowBits i.width (mantissaOf i) = mantissaOf i := by
  apply BitVec.eq_of_toNat_eq
  rw [lowBits_toNat, Nat.mod_eq_of_lt (mantissaOf_lt i)]

/-- Every operation's significand is its mantissa field decoded at its width (41 R71; 40 R62, R63). -/
theorem respond_sig (i : Instr) : (respond i).sig = significandPattern i.width (mantissaOf i) := by
  cases i <;> rfl

end Sys2Proof.Machine
end

