-- ==== Sys2Proof/Tests/Slice0.lean ====
section
/-! SUPPORT. Tests. Every expected value is copied from the spec: the vector's number in spec/95_test_vectors.md stands in
the test's name, or the rule is cited. The witnesses at the end show that the obligations' hypotheses can be met. -/

namespace Sys2Proof.Machine.Tests

/-! ### Well-formedness: each check refuses an ill-formed term -/

/-- 2^66 is no request word (30_encoding.md R38). -/
theorem test_wf_refuses_a_67_bit_number : requestWordOk 0x40000000000000000 = false := by decide
theorem test_wf_accepts_the_largest_word : requestWordOk 0x3FFFFFFFFFFFFFFFF = true := by decide
/-- 24 is no decoder width (40_mantissa_decoder.md R61). -/
theorem test_wf_refuses_width_24 : Width.ofNat? 24 = none := by decide
theorem test_wf_accepts_width_52 : Width.ofNat? 52 = some .w52 := by decide
theorem test_decode_refuses_by_name : decodeNat 0x40000000000000000 = .error .widerThanARequest := by decide

/-! ### Decoding: one word per row, written out from 30_encoding.md R38 and R40 (bit 65, bit 64, then x) -/

theorem test_decode_decompS : decodeWord (0b00#2 ++ 0x00000000C0200000#64) = .decompS 0x00000000C0200000#64 := by decide
theorem test_decode_decompD : decodeWord (0b01#2 ++ 0x3FF0000000000000#64) = .decompD 0x3FF0000000000000#64 := by decide
theorem test_decode_mdec23 : decodeWord (0b10#2 ++ 0x0000000000200000#64) = .mdec23 0x0000000000200000#64 := by decide
theorem test_decode_mdec52 : decodeWord (0b11#2 ++ 0x0008000000000000#64) = .mdec52 0x0008000000000000#64 := by decide
theorem test_encode_mdec52 : encodeWord (.mdec52 0x0008000000000000#64) = 0x30008000000000000#66 := by decide
/-- The four rows have one mask and four patterns: no word fits two of them. -/
theorem test_rows_do_not_overlap :
    ([Instr.decompS 0, .decompD 0, .mdec23 0, .mdec52 0].map fun i => (i.row.mask, i.row.pattern)).Pairwise
      (fun a b => a.1 = b.1 ∧ a.2 ≠ b.2) := by decide

/-- The parameters agree with one another (00_scope.md R9). -/
theorem test_R9_parameters_agree :
    1 + Config.eS + Config.wS = Config.nS ∧ 1 + Config.eD + Config.wD = Config.nD ∧
    Config.biasS = 2 ^ (Config.eS - 1) - 1 ∧ Config.biasD = 2 ^ (Config.eD - 1) - 1 := by decide

/-! ### One step after reset, by the request word -/

/-- The response after one step on a request word presented after reset. -/
def answer (w : Nat) : Option Response :=
  match step (State.reset.withFetchWord 72 w) with
  | .next t => t.response
  | .fault _ => none
  | .refused _ => none

theorem test_V5_mdec23 : answer 0x2000000000_07FFFFF =
    some ⟨0x00000000007FFFFF#64, 0#1, 0x000#12, 0x00000007FFFFF#52, 0x3FFFFFFFE0000000#64⟩ := by decide
theorem test_V10_mdec23 : answer 0x20000000000800000 =
    some ⟨0x0000000000000000#64, 0#1, 0x000#12, 0x0000000000000#52, 0x3FF0000000000000#64⟩ := by decide
theorem test_V17_mdec52 : answer 0x3000999999999999A =
    some ⟨0x000999999999999A#64, 0#1, 0x000#12, 0x999999999999A#52, 0x3FF999999999999A#64⟩ := by decide
theorem test_V21_mdec52 : answer 0x3FFFFFFFFFFFFFFFF =
    some ⟨0x000FFFFFFFFFFFFF#64, 0#1, 0x000#12, 0xFFFFFFFFFFFFF#52, 0x3FFFFFFFFFFFFFFF#64⟩ := by decide
theorem test_V24_decompS : answer 0x0000000003DCCCCCD =
    some ⟨0x000000003DCCCCCD#64, 0#1, 0xFFC#12, 0x00000004CCCCD#52, 0x3FF99999A0000000#64⟩ := by decide
theorem test_V34_decompS : answer 0x000000000FFFFFFFF =
    some ⟨0x00000000FFFFFFFF#64, 1#1, 0x080#12, 0x00000007FFFFF#52, 0x3FFFFFFFE0000000#64⟩ := by decide
theorem test_V41_decompD : answer 0x18000000000000000 =
    some ⟨0x8000000000000000#64, 1#1, 0xC01#12, 0x0000000000000#52, 0x3FF0000000000000#64⟩ := by decide
theorem test_V50_decompD : answer 0x1400921FB54442D18 =
    some ⟨0x400921FB54442D18#64, 0#1, 0x001#12, 0x921FB54442D18#52, 0x3FF921FB54442D18#64⟩ := by decide

/-- Reading before the first operation faults (10_state.md R25). -/
theorem test_read_after_reset_faults :
    step { State.reset with events := [.read] } = .fault .responseNeverWritten := by rfl

/-! ### The bit-serial decoder on the spec's trace, V0 (M = 0x50_0001) -/

/-- The working values after `k` passes of V0's trace. -/
def traced (k : Nat) : Decoder := Decoder.steps .w23 k (Decoder.start .w23 0x0000000500001#52)

theorem test_V0_after_step_2 : (traced 3).acc = 13 / 8 ∧ (traced 3).wt = 1 / 16 ∧ (traced 3).sh = 0x000008#52 := by
  decide +kernel
theorem test_V0_before_step_22 : (traced 22).sh = 0x400000#52 ∧ (traced 22).wt = 1 / 8388608 := by decide +kernel
theorem test_V0_final_acc : (Decoder.run .w23 0x0000000500001#52).acc = 13631489 / 8388608 := by decide +kernel
theorem test_V0_sig : b64 (13631489 / 8388608) = 0x3FFA000020000000#64 := by decide +kernel

/-! ### The host's rendering and observations -/

theorem test_V53_rendering : renderSingle (respond (.decompS 0xC0200000#64)) =
    "Single:\n\t0xC0200000\n\t-1.25000000 * 2^1\n".toList := by decide +kernel
theorem test_V58_rendering : renderDouble (respond (.decompD 0x0#64)) =
    "Double:\n\t0x0000000000000000\n\t+1.00000000000000000 * 2^-1023\n".toList := by decide +kernel
theorem test_V59_tie_to_even : renderSingle (respond (.decompS 0x804000#64)) =
    "Single:\n\t0x00804000\n\t+1.00195312 * 2^-126\n".toList := by decide +kernel
theorem test_V60_tie_to_even : renderDouble (respond (.decompD 0x3FF0000400000000#64)) =
    "Double:\n\t0x3FF0000400000000\n\t+1.00000381469726562 * 2^0\n".toList := by decide +kernel
theorem test_V62_rendering : renderDouble (respond (.decompD 0x7FEFFFFFFFFFFFFF#64)) =
    "Double:\n\t0x7FEFFFFFFFFFFFFF\n\t+1.99999999999999978 * 2^1023\n".toList := by decide +kernel

/-- Parameters whose conversions give one pattern each whatever the literal, and that consume nothing of a text that spells
no number. -/
def fixedParams (single : Pattern32) (overflow : Bool) (double : Pattern64) (underflowIsError : Bool) : DriverParams :=
  ⟨⟨fun _ => ⟨single, overflow⟩, fun _ => ⟨0, 0, false⟩⟩, ⟨fun _ => ⟨double, false⟩, fun _ => ⟨0, 0, false⟩⟩, ['u'],
    underflowIsError⟩

/-- Parameters for V63: the single parse overflows, the double parse gives 10^40's pattern (95_test_vectors.md V63). -/
def params63 : DriverParams := fixedParams 0x7F800000#32 true 0x483D6329F1C35CA5#64 false
theorem test_V63_observation : observe params63 ["1e40".toList] =
    ⟨"Double:\n\t0x483D6329F1C35CA5\n\t+1.83670992315982429 * 2^132\n".toList,
      "Single:\n\t1e40 bad or out of range\n".toList, 0⟩ := by decide +kernel
theorem test_V64_observation : observe params63 ["abc".toList] =
    ⟨[], "Single:\n\tabc bad or out of range\nDouble:\n\tabc bad or out of range\n".toList, 0⟩ := by decide +kernel
/-- Parameters for V65: negative zero in both widths. A zero literal is no underflow, even where that is an error (D24). -/
def params65 : DriverParams := fixedParams 0x80000000#32 false 0x8000000000000000#64 true
theorem test_V65_observation : observe params65 ["-0".toList] =
    ⟨"Single:\n\t0x80000000\n\t-1.00000000 * 2^-127\nDouble:\n\t0x8000000000000000\n\t-1.00000000000000000 * 2^-1023\n".toList,
      [], 0⟩ := by decide +kernel
/-- The same pattern from a literal that is not zero is flushed to zero (92_eei_decisions.md D24). -/
theorem test_D24_flushed_to_zero : (params65.parseS "-1e-99".toList).rangeError = true := by decide +kernel
/-- Leading whitespace, a sign, a point, an exponent and characters left over (45_host_driver.md R83). -/
theorem test_R83_decimal : scanNumber "\t -2.5e+1x".toList = some (⟨true, false, ['2'], ['5'], 1⟩, ['x']) := by
  decide +kernel
theorem test_R83_hex_float : scanNumber "+0X.aP-12".toList = some (⟨false, true, [], ['a'], -12⟩, []) := by decide +kernel
/-- An exponent mark without digits, and `0x` without a significand, are left over (log entry 18). -/
theorem test_R83_left_over : scanNumber "1e+".toList = some (⟨false, false, ['1'], [], 0⟩, ['e', '+']) ∧
    scanNumber "0x.p1".toList = some (⟨false, false, ['0'], [], 0⟩, ['x', '.', 'p', '1']) := by decide +kernel
theorem test_R83_no_number : scanNumber "-.e1".toList = none := by decide +kernel
/-- X3: `inf` fails in both widths, also where the parse consumes it (95_test_vectors.md X3). -/
theorem test_X3_inf : observe
    ⟨⟨fun _ => ⟨0, false⟩, fun _ => ⟨3, 0, false⟩⟩, ⟨fun _ => ⟨0, false⟩, fun _ => ⟨3, 0, false⟩⟩, ['u'], false⟩
    ["inf".toList] =
    ⟨[], "Single:\n\tinf bad or out of range\nDouble:\n\tinf bad or out of range\n".toList, 0⟩ := by decide +kernel
theorem test_V66_usage : observe params63 [] = ⟨[], ['u'], 1⟩ := by decide
theorem test_V67_usage : observe params63 ["1.0".toList, "2.0".toList] = ⟨[], ['u'], 1⟩ := by rfl

/-! ### Scripts (30_encoding.md R53, R55) -/

theorem test_R53_example : assembleRequest "DECOMP.S 0xC020_0000".toList =
    .ok ⟨0b00#2, 0x00000000C0200000#64⟩ := by decide +kernel
theorem test_R53_lower_case_and_comment : assembleLine "mdec.23 0x7F_ffff ; all ones".toList =
    .ok (.mdec23 0x7FFFFF#64) := by decide +kernel
theorem test_R53_refuses_17_digits : assembleLine "MDEC.52 0x10000000000000000".toList = .error .operand := by
  decide +kernel
theorem test_R53_refuses_another_mnemonic : assembleLine "MDEC.24 0x0".toList = .error .mnemonic := by decide +kernel
/-- R55's form on V23; the braces are characters 123 and 125. -/
theorem test_R55_V23 : responseText (respond (.decompS 0xC0200000#64)) =
    Char.ofNat 123 ::
      ("raw=0x00000000C0200000, sign=1, exp=1 (0x001), mant=0x0000000200000, sig=0x3FF4000000000000".toList ++
        [Char.ofNat 125]) := by decide +kernel

/-! ### Witnesses: the obligations' hypotheses can be met -/

/-- A state with an operation in progress: MDEC.23 of V0's field, two bit steps done. -/
def busy : State :=
  { State.reset with running := some (.mdec23 0x500001#64), decoder := traced 2, response := some (respond (.mdec52 0)) }

theorem busy_inv : busy.Inv where
  inLoop := by
    intro i h
    obtain rfl : Instr.mdec23 0x500001#64 = i := Option.some.inj h
    unfold Decoder.standsAt
    decide +kernel
  genuine := by
    intro r h
    exact ⟨.mdec52 0, (Option.some.inj h).symm⟩

/-- A request holds while V0 is in progress, and V0's own response comes first (70_reset_and_hazards.md R117). -/
theorem test_R117_hold :
    (match step { busy with events := [.request ⟨1, 2⟩] } with
      | .next t => (t.response.map Response.sig, t.running, t.events)
      | .fault _ => (none, none, [])
      | .refused _ => (none, none, [])) =
    (some 0x3FFA000020000000#64, none, [Event.request ⟨1, 2⟩]) := by decide +kernel

/-- Reset in the middle of V0 abandons it (70_reset_and_hazards.md R114). -/
theorem test_R114_reset_abandons :
    (match step { busy with events := [.reset, .read] } with
      | .next t => (t.response, t.running, t.events)
      | .fault _ => (none, none, [])
      | .refused _ => (none, none, [])) = (none, none, [Event.read]) := by decide

/-- A state that differs from reset in its hidden values only. -/
def hiddenOther : State := { State.reset with decoder := ⟨7, 3, 5#52, 9⟩, freeCount := 4 }

/-- An idle state with a held response and the given events. -/
def idle (es : List Event) : State := { State.reset with response := some (respond (.decompD 1)), events := es }

theorem witness_EveryRequestWordIsAnOperation : ∃ w : Nat, w < 2 ^ 66 := ⟨2 ^ 66 - 1, by decide⟩
theorem witness_StepPerformsThePresentedRequest :
    (∃ (s : State) (r : Request) (es : List Event), s.running = none ∧ s.events = .request r :: es) ∧
    (∃ nbits w : Nat, w < 2 ^ 66 ∧ w < 2 ^ nbits) :=
  ⟨⟨idle [.request ⟨3, 5⟩, .read], ⟨3, 5⟩, [.read], rfl, rfl⟩, 72, 2 ^ 66 - 1, by decide, by decide⟩
theorem witness_IgnoredOperandBitsHaveNoEffect : ∃ x y : Word64, x ≠ y ∧ x.toNat % 2 ^ 32 = y.toNat % 2 ^ 32 ∧
    x.toNat % 2 ^ 23 = y.toNat % 2 ^ 23 ∧ x.toNat % 2 ^ 52 = y.toNat % 2 ^ 52 :=
  ⟨0xDEADBEEF3F800000#64, 0x000DBEEF3F800000#64, by decide, by decide,
    by decide, by decide⟩
theorem witness_IgnoredOperandBits_decompD :
    exec (.decompD 5) State.reset = exec (.decompD 5) State.reset := rfl
theorem witness_ResponseDependsOnTheRequestAlone : ∃ (s₁ s₂ : State) (r : Request) (es₁ es₂ : List Event),
    s₁ ≠ s₂ ∧ s₁.running = none ∧ s₂.running = none ∧ s₁.events = .request r :: es₁ ∧ s₂.events = .request r :: es₂ :=
  ⟨idle [.request ⟨0, 1⟩], State.reset.present ⟨0, 1⟩, ⟨0, 1⟩, [], [], by decide, rfl, rfl, rfl, rfl⟩
theorem witness_KthResponseAnswersTheKthRequest : ∃ (rs : List Request) (s : State) (k : Nat),
    k < rs.length ∧ s.running = none ∧ s.events = rs.map .request ++ [.read] :=
  ⟨[⟨0, 1⟩, ⟨3, 2⟩], idle [.request ⟨0, 1⟩, .request ⟨3, 2⟩, .read], 1, by decide, rfl, rfl⟩
theorem witness_MantissaBitsWeighMostSignificantFirst :
    (22 < Width.w23.bits ∧ Nat.testBit 5 22 = false) ∧ (0 < Width.w52.bits ∧ Nat.testBit 4 0 = false) := by decide
theorem witness_PartialSumsAreExact : (0 ≤ Width.w23.bits) ∧ (52 ≤ Width.w52.bits) := by decide
theorem witness_BitSerialLoopReturnsMantDec : (0 < Width.w23.bits) ∧ (51 < Width.w52.bits) := by decide
theorem witness_B64EncodesItsValue : (0 < 2 ^ 52) ∧ (2 ^ 52 - 1 < 2 ^ 52) := by decide
theorem witness_DecoderIsStrictlyIncreasing : ∃ m₁ m₂ : Field52, m₁.toNat < m₂.toNat ∧ m₂.toNat < 2 ^ Width.w23.bits :=
  ⟨0#52, 0x7FFFFF#52, by decide, by decide⟩
theorem witness_NoPatternIsASpecialCase :
    (0x80000000#64).extractLsb' 23 8 = 0#8 ∧ (0x7FC00000#64).extractLsb' 23 8 = 255#8 ∧
    (0x8000000000000000#64).extractLsb' 52 11 = 0#11 ∧ (0x7FF8000000000000#64).extractLsb' 52 11 = 2047#11 := by decide
/-- A zero and a subnormal pattern, an infinity's and a NaN's, in each width (41_format_decomposer.md R77). -/
theorem witness_NonNormalizedPatternsAreNotReconstructed :
    (0x00000000#64).extractLsb' 23 8 = 0#8 ∧ (0x007FFFFF#64).extractLsb' 23 8 = 0#8 ∧
    (0x7F800000#64).extractLsb' 23 8 = 255#8 ∧ (0xFFFFFFFF#64).extractLsb' 23 8 = 255#8 ∧
    (0x0000000000000000#64).extractLsb' 52 11 = 0#11 ∧ (0x000FFFFFFFFFFFFF#64).extractLsb' 52 11 = 0#11 ∧
    (0x7FF0000000000000#64).extractLsb' 52 11 = 2047#11 ∧ (0xFFFFFFFFFFFFFFFF#64).extractLsb' 52 11 = 2047#11 := by
  decide
theorem witness_NormalizedPatternsAreReconstructed :
    normalizedSingle ((0xC0200000#64).extractLsb' 0 32) ∧ normalizedDouble 0xC004000000000000#64 := by
  unfold normalizedSingle normalizedDouble
  decide
theorem witness_NormalizedPatterns_at_the_edges :
    normalizedSingle 0x00800000#32 ∧ normalizedSingle 0x7F7FFFFF#32 ∧
    normalizedDouble 0x0010000000000000#64 ∧ normalizedDouble 0x7FEFFFFFFFFFFFFF#64 := by
  unfold normalizedSingle normalizedDouble
  decide
theorem witness_ResponsePortsHoldTheLastResponse_read :
    (∃ s : State, s.running = none ∧ s.events = [.read] ∧ s.response = none) ∧
    (∃ (s : State) (r : Response), s.running = none ∧ s.events = [.read] ∧ s.response = some r) :=
  ⟨⟨{ State.reset with events := [.read] }, rfl, rfl, rfl⟩, idle [.read], _, rfl, rfl, rfl⟩
theorem witness_ResponsePortsHoldTheLastResponse_step : ∃ s t : State, s.Inv ∧ step s = .next t :=
  ⟨busy, busy.completeRun, busy_inv, rfl⟩
theorem witness_OnlyAnEarlyReadStopsTheMachine : ∃ (s : State) (f : Fault), step s = .fault f :=
  ⟨{ State.reset with events := [.read] }, .responseNeverWritten, rfl⟩
theorem witness_ResetEmptiesTheBlock : ∃ (s : State) (es : List Event), s.running ≠ none ∧ s.events = .reset :: es :=
  ⟨{ busy with events := [.reset, .read] }, [.read], by decide, rfl⟩
theorem witness_StepKeepsTheInvariant : ∃ s t : State, s.Inv ∧ s.running ≠ none ∧ step s = .next t :=
  ⟨busy, busy.completeRun, busy_inv, by decide, rfl⟩
theorem witness_RequestHoldsWhileAnOperationIsInProgress :
    (∃ (s : State) (i : Instr) (r : Request), s.Inv ∧ s.running = some i ∧ s.events = [.request r]) ∧
    (∃ (s : State) (i : Instr) (r : Request), s.Inv ∧ s.running = some i ∧ s.events = [.accept r]) :=
  ⟨⟨{ busy with events := [.request ⟨1, 2⟩] }, .mdec23 0x500001#64, ⟨1, 2⟩, ⟨busy_inv.inLoop, busy_inv.genuine⟩, rfl, rfl⟩,
    { busy with events := [.accept ⟨1, 2⟩] }, .mdec23 0x500001#64, ⟨1, 2⟩, ⟨busy_inv.inLoop, busy_inv.genuine⟩, rfl, rfl⟩
theorem witness_BitSerialRunEqualsTheOneStepForm : ∃ (s : State) (r : Request) (es : List Event),
    s.running = none ∧ s.events = .accept r :: (List.replicate ((decode r).width.bits + 1) .bitStep ++ es) :=
  ⟨idle (.accept ⟨0, 7⟩ :: (List.replicate 24 .bitStep ++ [.read])), ⟨0, 7⟩, [.read], rfl, rfl⟩
theorem witness_NoPartialResponseIsVisible : ∃ (s : State) (r : Request) (k : Nat),
    s.running = none ∧ k ≤ (decode r).width.bits ∧ s.events = .accept r :: (List.replicate k .bitStep ++ []) :=
  ⟨idle (.accept ⟨0, 7⟩ :: (List.replicate 23 .bitStep ++ [])), ⟨0, 7⟩, 23, rfl, by decide, rfl⟩
theorem witness_EveryOperationCompletes : ∃ (s : State) (i : Instr), s.Inv ∧ s.running = some i ∧
    s.events = List.replicate (bitsLeft i s.decoder + 1) .bitStep ++ [] :=
  ⟨{ busy with events := List.replicate 22 .bitStep ++ [] }, .mdec23 0x500001#64,
    ⟨busy_inv.inLoop, busy_inv.genuine⟩, rfl, by decide +kernel⟩
theorem witness_WorkingValuesAreInvisible_accept : ∃ (s : State) (r : Request) (es : List Event),
    s.running = none ∧ s.events = .accept r :: es := ⟨idle [.accept ⟨2, 9⟩], ⟨2, 9⟩, [], rfl, rfl⟩
theorem witness_WorkingValuesAreInvisible : State.reset.running = none ∧ hiddenOther.running = none ∧
    State.reset.visible = hiddenOther.visible ∧ State.reset.decoder ≠ hiddenOther.decoder :=
  ⟨rfl, rfl, rfl, by decide +kernel⟩
/-- The two states of the witness before, each with a request accepted: both runs go on. -/
theorem witness_WorkingValuesAreInvisible_run : ∃ t₁ t₂,
    runSteps 1 { State.reset with events := [.accept ⟨2, 9⟩] } = .next t₁ ∧
    runSteps 1 { hiddenOther with events := [.accept ⟨2, 9⟩] } = .next t₂ ∧ t₁.running ≠ none :=
  ⟨_, _, rfl, rfl, by decide⟩
/-- The operation in progress is not visible (10_state.md R26). -/
theorem test_R26_visible : busy.visible = { busy with running := none, decoder := ⟨7, 3, 5#52, 9⟩ }.visible := rfl
theorem witness_ArgumentCountDecidesTheStatus : ([] : List Text).length ≠ 1 ∧ [['1']].length = 1 := by decide
/-- The double parse fails alone: its pattern is a NaN's. -/
def params36 : DriverParams := fixedParams 0x3F800000#32 false 0x7FF8000000000000#64 false
/-- Both parses fail, the single one alone, the double one alone, none. -/
theorem witness_InvocationGivesTheObservation :
    (singleFails (params63.parseS []) ∧ doubleFails (params63.parseD [])) ∧
    (singleFails (params63.parseS ['1']) ∧ !doubleFails (params63.parseD ['1'])) ∧
    (!singleFails (params36.parseS ['1']) ∧ doubleFails (params36.parseD ['1'])) ∧
    (!singleFails (params65.parseS ['0']) ∧ !doubleFails (params65.parseD ['0'])) := by decide
theorem witness_HexTextIsTheExactPattern : (0 < 16 ^ 0) ∧ (0xFFFFFFFF < 16 ^ 8) := by decide
theorem witness_RenderedLineReconstructsTheValue :
    normalizedSingle 0x3DCCCCCD#32 ∧ normalizedDouble 0x3FB999999999999A#64 := by
  unfold normalizedSingle normalizedDouble
  decide
theorem witness_SignificandText_tie : 2 * |(significandScaled 8 0x3FF0080000000000#64 : Rat) -
    significandNumerator 0x3FF0080000000000#64 * 10 ^ 8 / 2 ^ 52| = 1 := by
  have h₁ : significandScaled 8 0x3FF0080000000000#64 = 100195312 := by decide +kernel
  have h₂ : significandNumerator 0x3FF0080000000000#64 = 4512395720392704 := by decide +kernel
  rw [h₁, h₂]
  norm_num

/-- The end of the text carries no number on. -/
theorem ends_before_nothing (n : Spelling) : n.EndsBefore [] where
  afterExponent := by simp
  noDigit := by simp
  noPoint := by simp
  noExponent := by simp
  noHex := by simp

/-- `\t-1.5e+1` before `x`: every part is written, the exponent's digits end. -/
theorem witness_ParseReadsANumberOfTheSyntax_exponent : ∃ (n : Spelling) (rest : Text), n.Ok ∧ n.EndsBefore rest ∧
    n.text ++ rest = "\t-1.5e+1x".toList :=
  ⟨⟨['\t'], some '-', none, ['1'], some ['5'], some ⟨'e', some '+', ['1']⟩⟩, ['x'],
    ⟨by simp, by simp, by simp, by simp [Spelling.digits, decimalDigits], by simp,
      by simp [Spelling.marks, decimalDigits]⟩,
    ⟨by simp [decimalDigits], by simp, by simp, by simp, by simp⟩, by decide +kernel⟩
/-- `1` before `e+`: an exponent mark without digits. -/
theorem witness_ParseReadsANumberOfTheSyntax_mark : ∃ (n : Spelling) (rest : Text), n.Ok ∧ n.EndsBefore rest ∧
    n.text ++ rest = "1e+".toList :=
  ⟨⟨[], none, none, ['1'], none, none⟩, ['e', '+'],
    ⟨by simp, by simp, by simp, by simp [Spelling.digits, decimalDigits], by simp, by simp⟩,
    ⟨by simp, by simp [Spelling.digits, decimalDigits], by simp, by
      rintro - m sg d u h - hs
      cases sg with
      | none => obtain ⟨-, rfl, -⟩ : 'e' = m ∧ '+' = d ∧ [] = u := by simpa using h
                decide
      | some c => simp at h,
      by simp⟩, by decide +kernel⟩
/-- `0` before `x.p1`: `0x` without a hex significand. -/
theorem witness_ParseReadsANumberOfTheSyntax_zero : ∃ (n : Spelling) (rest : Text), n.Ok ∧ n.EndsBefore rest ∧
    n.text ++ rest = "0x.p1".toList :=
  ⟨⟨[], none, none, ['0'], none, none⟩, ['x', '.', 'p', '1'],
    ⟨by simp, by simp, by simp, by simp [Spelling.digits, decimalDigits], by simp, by simp⟩,
    ⟨by simp, by simp [Spelling.digits, decimalDigits], by simp, by
      rintro - m sg d u h hm -
      obtain rfl : 'x' = m := by injection h
      simp [Spelling.marks] at hm,
      by
      rintro - - - - x u h -
      obtain ⟨-, rfl⟩ := List.cons.inj h
      constructor
      · rintro c v h
        obtain ⟨rfl, -⟩ := List.cons.inj h
        decide
      · rintro c v h
        obtain ⟨-, h⟩ := List.cons.inj h
        obtain ⟨rfl, -⟩ := List.cons.inj h
        decide⟩, by decide +kernel⟩
/-- `0x.8`: hex digits after the point alone, and nothing left over. -/
theorem witness_ParseReadsANumberOfTheSyntax_hex : ∃ (n : Spelling), n.Ok ∧ n.EndsBefore [] ∧ n.text = "0x.8".toList :=
  ⟨⟨[], none, some 'x', [], some ['8'], none⟩,
    ⟨by simp, by simp, by simp, by simp [Spelling.digits, hexDigits, decimalDigits], by simp, by simp⟩,
    ends_before_nothing _, by decide +kernel⟩
theorem witness_OnlyNumbersOfTheSyntaxPass :
    ((params36.parseS ['1']).consumed ≠ 0 ∧ (params36.parseS ['1']).value.extractLsb' 23 8 ≠ 255#8) ∧
    ((params63.parseD ['1']).consumed ≠ 0 ∧ (params63.parseD ['1']).value.extractLsb' 52 11 ≠ 2047#11) := by decide
theorem witness_ReadsAndResetsDuringAnOperation :
    (∃ (s : State) (i : Instr), s.running = some i ∧ s.events = [.read] ∧ s.response = none) ∧
    (∃ (s : State) (i : Instr), s.running = some i ∧ s.events = [.read] ∧ s.response ≠ none) ∧
    (∃ s : State, s.events = [.reset, .read]) :=
  ⟨⟨{ busy with events := [.read], response := none }, _, rfl, rfl, rfl⟩,
    ⟨{ busy with events := [.read] }, _, rfl, rfl, by decide⟩, { busy with events := [.reset, .read] }, rfl⟩

end Sys2Proof.Machine.Tests
end

section
/-! PROOF. The bit-serial loop: where its working values stand after every bit step (40_mantissa_decoder.md R58, R59), and
that its last accumulator gives the response of the one-step form. -/

namespace Sys2Proof.Machine

/-- A run starts at the loop's head. -/
theorem Decoder.standsAt_start {w : Width} {m : Field52} (hm : m.toNat < 2 ^ w.bits) :
    Decoder.standsAt w m.toNat 0 (Decoder.start w m) := by
  refine ⟨?_, ?_, ?_, rfl⟩
  · simp [Nat.div_eq_of_lt hm]
  · norm_num
  · simp [lowBits_toNat]

/-- The bit examined at step `k` is bit `w - 1 - k` of the field (40_mantissa_decoder.md R58). -/
theorem Decoder.standsAt.examinedBit {w : Width} {m k : Nat} {d : Decoder} (h : Decoder.standsAt w m k d)
    (hk : k < w.bits) : d.sh.getLsbD (w.bits - 1) = m.testBit (w.bits - 1 - k) := by
  obtain ⟨-, -, hsh, -⟩ := h
  have hlast : w.bits - 1 < w.bits := by omega
  have hkl : k ≤ w.bits - 1 := by omega
  rw [BitVec.getLsbD, hsh, Nat.testBit_mod_two_pow, Nat.testBit_mul_two_pow]
  simp [hlast, hkl]

/-- A shift within `w` bits carries the field on by one place. -/
theorem lowBits_shiftLeft_one_toNat {w : Width} {m k : Nat} {sh : Field52} (h : sh.toNat = m * 2 ^ k % 2 ^ w.bits) :
    (lowBits w (sh <<< 1)).toNat = m * 2 ^ (k + 1) % 2 ^ w.bits := by
  have hdvd : 2 ^ w.bits ∣ 2 ^ 52 := pow_dvd_pow 2 w.bits_le
  rw [lowBits_toNat, BitVec.toNat_shiftLeft, Nat.mod_mod_of_dvd _ hdvd, h, Nat.shiftLeft_eq, Nat.mod_mul_mod, pow_one,
    pow_succ, mul_assoc]

/-- One more leading bit of a field: the bits before it double and take it in. -/
theorem div_two_pow_eq_succ (m j : Nat) : m / 2 ^ j = 2 * (m / 2 ^ (j + 1)) + (m.testBit j).toNat := by
  rw [pow_succ, ← Nat.div_div_eq_div_mul, Nat.toNat_testBit]
  omega

/-- One pass of the loop body takes the working values one place on (40_mantissa_decoder.md R59). -/
theorem Decoder.standsAt.step {w : Width} {m k : Nat} {d : Decoder} (h : Decoder.standsAt w m k d)
    (hk : k < w.bits) : Decoder.standsAt w m (k + 1) (Decoder.step w d) := by
  have hbit := h.examinedBit hk
  obtain ⟨hacc, hwt, hsh, hi⟩ := h
  obtain ⟨j, hj⟩ : ∃ j, w.bits = k + 1 + j := ⟨w.bits - (k + 1), by omega⟩
  have hj₀ : w.bits - 1 - k = j := by omega
  have hj₁ : w.bits - k = j + 1 := by omega
  have hj₂ : w.bits - (k + 1) = j := by omega
  rw [hj₀] at hbit
  rw [hj₁] at hacc
  refine ⟨?_, ?_, lowBits_shiftLeft_one_toNat hsh, by rw [Decoder.step_i, hi]⟩
  · rw [hj₂, div_two_pow_eq_succ, Decoder.step, hbit, hacc, hwt]
    cases m.testBit j
    · simp [pow_succ]; field_simp
    · simp [pow_succ]; field_simp; ring
  · rw [Decoder.step_wt, hwt, div_div, ← pow_succ]

/-- Several passes in a row, within the loop. -/
theorem Decoder.standsAt.steps {w : Width} {m k : Nat} {d : Decoder} (h : Decoder.standsAt w m k d) {n : Nat}
    (hn : k + n ≤ w.bits) : Decoder.standsAt w m (k + n) (Decoder.steps w n d) := by
  induction n with
  | zero => exact h
  | succ n ih =>
    rw [Decoder.steps_succ]
    exact (ih (by omega)).step (by omega)

/-- `B64(1 + f·2^-52)` as a number: the exponent field of 1 with `f` beside it (30_encoding.md R49). -/
theorem b64_toNat {f : Nat} (hf : f < 2 ^ 52) :
    (b64 (1 + (f : Rat) / 2 ^ 52)).toNat = 0x3FF0000000000000 + f := by
  have hfloor : ((1 + (f : Rat) / 2 ^ 52 - 1) * 2 ^ 52).floor.toNat = f := by
    have : (1 + (f : Rat) / 2 ^ 52 - 1) * 2 ^ 52 = (f : Rat) := by field_simp; ring
    rw [this, ← Int.cast_natCast, Rat.floor_intCast, Int.toNat_natCast]
  have hor := Nat.two_pow_add_eq_or_of_lt hf 0x3FF
  rw [b64, hfloor]
  simp only [BitVec.toNat_cast, BitVec.toNat_append, BitVec.toNat_ofNat, Nat.mod_eq_of_lt hf, Nat.shiftLeft_eq]
  norm_num at hor ⊢
  exact hor.symm

/-- The one-step pattern is `B64` of one plus the field's fraction (40_mantissa_decoder.md R60). -/
theorem b64_fraction_eq_significandPattern {w : Width} {m : Field52} (hm : m.toNat < 2 ^ w.bits) :
    b64 (1 + (m.toNat : Rat) / 2 ^ w.bits) = significandPattern w m := by
  have hpow : 2 ^ w.bits * 2 ^ (52 - w.bits) = 2 ^ 52 := by rw [← pow_add, Nat.add_sub_cancel' w.bits_le]
  have hlt : m.toNat * 2 ^ (52 - w.bits) < 2 ^ 52 := hpow ▸ Nat.mul_lt_mul_of_pos_right hm (by positivity)
  have hscale : (m.toNat : Rat) / 2 ^ w.bits = ((m.toNat * 2 ^ (52 - w.bits) : Nat) : Rat) / 2 ^ 52 := by
    rw [← mul_div_mul_right _ _ (pow_ne_zero (52 - w.bits) (two_ne_zero (α := Rat)))]
    push_cast
    rw [← pow_add, Nat.add_sub_cancel' w.bits_le]
  apply BitVec.eq_of_toNat_eq
  rw [hscale, b64_toNat hlt, significandPattern_toNat, Nat.mod_eq_of_lt hm]

/-- Working values at the loop's end give the one-step form's response. -/
theorem serialResponse_of_standsAt {i : Instr} {d : Decoder}
    (h : Decoder.standsAt i.width (mantissaOf i).toNat i.width.bits d) : serialResponse i d = respond i := by
  obtain ⟨hacc, -⟩ := h
  rw [Nat.sub_self, pow_zero, Nat.div_one] at hacc
  have hsig : b64 d.acc = (respond i).sig := by
    rw [hacc, b64_fraction_eq_significandPattern (mantissaOf_lt i), respond_sig]
  rw [serialResponse, hsig]

end Sys2Proof.Machine
end

section
/-! PROOF. An operation in progress inside its loop: what one bit step, its completion and a run of bit steps give. -/

namespace Sys2Proof.Machine

/-- Taking the first event leaves the events after it, and the block as it is. -/
theorem State.took_of_events {s : State} {e : Event} {es : List Event} (h : s.events = e :: es) :
    s.took = { s with events := es } := by
  simp [State.took, h]

/-- A request accepted puts the block at the head of its operation's loop. -/
theorem State.acceptOp_runInLoop (i : Instr) (s : State) : (s.acceptOp i).runInLoop := by
  intro j hj
  obtain rfl : i = j := by simpa using hj
  exact ⟨Nat.zero_le _, Decoder.standsAt_start (mantissaOf_lt i)⟩

/-- The loop's end, reached from any point of it. -/
theorem State.runInLoop.serialResponse_steps {s : State} {i : Instr} (h : s.runInLoop) (hr : s.running = some i) :
    serialResponse i (Decoder.steps i.width (bitsLeft i s.decoder) s.decoder) = respond i := by
  obtain ⟨hle, hat⟩ := h i hr
  have hend : s.decoder.i + bitsLeft i s.decoder = i.width.bits := Nat.add_sub_cancel' hle
  apply serialResponse_of_standsAt
  simpa [hend] using hat.steps hend.le

/-- An operation in progress that completes delivers its own response (70_reset_and_hazards.md R117, R119). -/
theorem State.runInLoop.completeRun {s : State} {i : Instr} (h : s.runInLoop) (hr : s.running = some i) :
    s.completeRun = s.deliver (respond i) := by
  rw [State.completeRun_of_running hr, h.serialResponse_steps hr]

/-- A bit step before the loop's end is a pass of the loop body. -/
theorem State.bitStep_of_lt {s : State} {i : Instr} (hr : s.running = some i) (hi : s.decoder.i < i.width.bits) :
    s.bitStep = { s with decoder := Decoder.step i.width s.decoder } := by
  simp [State.bitStep, hr, hi]

/-- The bit step at the loop's end delivers. -/
theorem State.bitStep_of_le {s : State} {i : Instr} (hr : s.running = some i) (hi : i.width.bits ≤ s.decoder.i) :
    s.bitStep = s.deliver (serialResponse i s.decoder) := by
  simp [State.bitStep, hr, Nat.not_lt.mpr hi]

/-- A `bitStep` event before the loop's end: one pass of the loop body. -/
theorem step_bitStep_of_lt {s : State} {i : Instr} {es : List Event} (hr : s.running = some i)
    (hi : s.decoder.i < i.width.bits) (he : s.events = .bitStep :: es) :
    step s = .next { s with decoder := Decoder.step i.width s.decoder, events := es } := by
  rw [step_bitStep he, State.took_of_events he, State.bitStep_of_lt (s := { s with events := es }) hr hi]

/-- A `bitStep` event at the loop's end: the delivery. -/
theorem step_bitStep_of_le {s : State} {i : Instr} {es : List Event} (hr : s.running = some i)
    (hi : i.width.bits ≤ s.decoder.i) (he : s.events = .bitStep :: es) :
    step s = .next (State.deliver (serialResponse i s.decoder) { s with events := es }) := by
  rw [step_bitStep he, State.took_of_events he, State.bitStep_of_le (s := { s with events := es }) hr hi]

/-- A bit step leaves the ports as they are, or completes the operation in progress with its own response. -/
theorem State.runInLoop.bitStep_response {s : State} (h : s.runInLoop) :
    s.bitStep.response = s.response ∨ ∃ i, s.running = some i ∧ s.bitStep = s.deliver (respond i) := by
  rcases s.bitStep_cases with ⟨-, hs⟩ | ⟨i, -, -, hs⟩ | ⟨i, hr, hge, hs⟩
  · exact .inl (by rw [hs])
  · exact .inl (by rw [hs])
  · refine .inr ⟨i, hr, ?_⟩
    have hzero : bitsLeft i s.decoder = 0 := Nat.sub_eq_zero_of_le hge
    have hresp := h.serialResponse_steps hr
    rw [hzero] at hresp
    rw [hs, ← hresp, Decoder.steps]

/-- Bit steps within the loop move the working values on and nothing else. -/
theorem runSteps_bitSteps {s : State} {i : Instr} {k : Nat} {es : List Event} (hr : s.running = some i)
    (hk : s.decoder.i + k ≤ i.width.bits) (he : s.events = List.replicate k .bitStep ++ es) :
    runSteps k s = .next { s with decoder := Decoder.steps i.width k s.decoder, events := es } := by
  induction k generalizing s with
  | zero =>
    obtain rfl : s.events = es := by simpa using he
    rfl
  | succ k ih =>
    rw [List.replicate_succ, List.cons_append] at he
    have hlt : s.decoder.i < i.width.bits := by omega
    have hk' : (Decoder.step i.width s.decoder).i + k ≤ i.width.bits := by rw [Decoder.step_i]; omega
    rw [runSteps_succ_next (step_bitStep_of_lt hr hlt he)]
    exact ih (s := { s with decoder := _, events := _ }) hr hk' rfl

/-- The remaining bit steps and the delivery complete the operation in progress with its own response
(70_reset_and_hazards.md R119). -/
theorem State.runInLoop.runSteps_delivers {s : State} {i : Instr} {es : List Event} (h : s.runInLoop)
    (hr : s.running = some i) (he : s.events = List.replicate (bitsLeft i s.decoder + 1) .bitStep ++ es) :
    runSteps (bitsLeft i s.decoder + 1) s = .next (State.deliver (respond i) { s with events := es }) := by
  have hend : s.decoder.i + bitsLeft i s.decoder = i.width.bits := Nat.add_sub_cancel' (h i hr).1
  have hdone : i.width.bits ≤ (Decoder.steps i.width (bitsLeft i s.decoder) s.decoder).i := by
    rw [Decoder.steps_i, hend]
  have hloop := runSteps_bitSteps (es := .bitStep :: es) hr hend.le
    (by rw [he, List.replicate_succ', List.append_assoc]; rfl)
  rw [runSteps_add hloop, runSteps_one, ← h.serialResponse_steps hr]
  exact step_bitStep_of_le (s := { s with decoder := _, events := _ }) hr hdone rfl

/-- While the ports hold no value a read of any of them faults (10_state.md R25). -/
theorem State.readPort_of_none {s : State} (h : s.response = none) (p : ResponsePort) :
    s.readPort p = .error .responseNeverWritten := by
  simp [State.readPort, h]

/-- A held response shows on every port (10_state.md R17, R25). -/
theorem State.readPort_of_some {s : State} {r : Response} (h : s.response = some r)
    (p : ResponsePort) : s.readPort p = .ok (r.port p) := by
  simp [State.readPort, h]

/-- All a step can do to the response under the invariant: nothing, a reset, or the completion of an operation. -/
theorem State.Inv.step_response {s t : State} (hinv : s.Inv) (hstep : step s = .next t) :
    t.response = s.response ∨
    (∃ es, s.events = .reset :: es ∧ t.response = none) ∨
    (∃ i, t.response = some (respond i) ∧ t.running = none ∧
      (s.running = some i ∨ (s.running = none ∧ ∃ r es, s.events = .request r :: es ∧ decode r = i))) := by
  have hloop := hinv.inLoop
  rcases step_inversion s with ⟨-, hs⟩ | ⟨r, es, hr, he, hs⟩ | ⟨r, es, -, -, hs⟩ | ⟨es, -, hs⟩ |
    ⟨es, -, -, hs⟩ | ⟨es, q, -, -, hs⟩ | ⟨es, he, hs⟩ <;> rw [hs] at hstep <;> cases hstep
  · cases hr : s.running with
    | none => exact .inl (by rw [State.completeRun_of_idle hr])
    | some i =>
      rw [hloop.completeRun hr]
      exact .inr (.inr ⟨i, rfl, rfl, .inl rfl⟩)
  · exact .inr (.inr ⟨decode r, rfl, rfl, .inr ⟨hr, r, es, he, rfl⟩⟩)
  · exact .inl rfl
  · have htook : s.took.runInLoop := hloop
    rcases htook.bitStep_response with h | ⟨i, hr, h⟩
    · exact .inl h
    · rw [h]
      exact .inr (.inr ⟨i, rfl, rfl, .inl hr⟩)
  · exact .inl rfl
  · exact .inr (.inl ⟨es, he, rfl⟩)

/-- A request word placed for the next step is presented as its request. -/
theorem State.withFetchWord_of_lt (s : State) {nbits w : Nat} (hw : w < 2 ^ 66)
    (hn : w < 2 ^ nbits) : s.withFetchWord nbits w = s.present (Request.ofWord (BitVec.ofNat 66 w)) := by
  have htable : tableWord nbits w = w := Nat.mod_eq_of_lt hn
  have hok : requestWordOk w = true := decide_eq_true hw
  rw [State.withFetchWord, htable, if_pos hok]

end Sys2Proof.Machine
end

section
/-! PROOF. Two machines that differ in hidden values only: the relation, and that every step keeps it
(10_state.md R23). -/

namespace Sys2Proof.Machine

/-- The same ports, the same coming events and the same operation in progress, with the same working values while there is
one. Nothing is said of the working values of an idle block, nor of the free values to come. -/
structure State.Alike (s t : State) : Prop where
  response : s.response = t.response
  events   : s.events = t.events
  running  : s.running = t.running
  decoder  : ∀ i, s.running = some i → s.decoder = t.decoder

variable {s t : State}

/-- Two idle machines that look the same are alike. -/
theorem State.Alike.of_visible (hs : s.running = none) (ht : t.running = none) (hv : s.visible = t.visible) :
    s.Alike t where
  response := congrArg Prod.fst hv
  events   := congrArg Prod.snd hv
  running  := hs.trans ht.symm
  decoder  := by simp [hs]

/-- Machines that are alike look the same. -/
theorem State.Alike.visible (h : s.Alike t) : s.visible = t.visible := by
  rw [State.visible, h.response, h.events, State.visible]

theorem State.Alike.took (h : s.Alike t) : s.took.Alike t.took :=
  ⟨h.response, congrArg List.tail h.events, h.running, h.decoder⟩

theorem State.Alike.deliver (h : s.Alike t) (q : Response) : (s.deliver q).Alike (t.deliver q) where
  response := rfl
  events   := h.events
  running  := rfl
  decoder  := by simp

theorem State.Alike.resetBlock (h : s.Alike t) : s.resetBlock.Alike t.resetBlock where
  response := rfl
  events   := h.events
  running  := rfl
  decoder  := by simp

theorem State.Alike.acceptOp (h : s.Alike t) (i : Instr) : (s.acceptOp i).Alike (t.acceptOp i) where
  response := h.response
  events   := h.events
  running  := rfl
  decoder  := fun _ _ => rfl

theorem State.Alike.completeRun (h : s.Alike t) : s.completeRun.Alike t.completeRun := by
  cases hr : s.running with
  | none => rwa [State.completeRun_of_idle hr, State.completeRun_of_idle (h.running ▸ hr)]
  | some i =>
    rw [State.completeRun_of_running hr, State.completeRun_of_running (h.running ▸ hr), h.decoder i hr]
    exact h.deliver _

theorem State.Alike.bitStep (h : s.Alike t) : s.bitStep.Alike t.bitStep := by
  rcases s.bitStep_cases with ⟨hr, hs⟩ | ⟨i, hr, hi, hs⟩ | ⟨i, hr, hi, hs⟩
  · have ht : t.bitStep = t := by simp [State.bitStep, ← h.running, hr]
    rwa [hs, ht]
  · have hd := h.decoder i hr
    rw [hs, State.bitStep_of_lt (h.running ▸ hr) (hd ▸ hi), hd]
    exact ⟨h.response, h.events, h.running, fun _ _ => rfl⟩
  · have hd := h.decoder i hr
    rw [hs, State.bitStep_of_le (h.running ▸ hr) (hd ▸ hi), hd]
    exact h.deliver _

/-- Two outcomes alike: the same stop, or next states that are alike. -/
inductive OutcomesAlike : Host.Outcome State Fault Refusal → Host.Outcome State Fault Refusal → Prop where
  | next {s t : State} (h : s.Alike t) : OutcomesAlike (.next s) (.next t)
  | fault (f : Fault) : OutcomesAlike (.fault f) (.fault f)

/-- A step takes machines that are alike to outcomes that are alike. -/
theorem State.Alike.step (h : s.Alike t) : OutcomesAlike (step s) (step t) := by
  have hresp := h.response
  have hev := h.events
  have hrun := h.running
  rcases step_inversion s with ⟨hc, hs⟩ | ⟨r, es, hr, he, hs⟩ | ⟨r, es, hr, he, hs⟩ | ⟨es, he, hs⟩ |
    ⟨es, he, hq, hs⟩ | ⟨es, q, he, hq, hs⟩ | ⟨es, he, hs⟩
  · rw [State.inProgress, hev, hrun] at hc
    rw [hs, step_completes hc]
    exact .next h.completeRun
  · rw [hs, step_request (hrun ▸ hr) (hev ▸ he), exec_eq]
    exact .next (h.took.deliver _)
  · rw [hs, step_accept (hrun ▸ hr) (hev ▸ he)]
    exact .next (h.took.acceptOp _)
  · rw [hs, step_bitStep (hev ▸ he)]
    exact .next h.took.bitStep
  · rw [hs, step_read_none (hev ▸ he) (hresp ▸ hq)]
    exact .fault _
  · rw [hs, step_read_some (hev ▸ he) (hresp ▸ hq)]
    exact .next h.took
  · rw [hs, step_reset (hev ▸ he)]
    exact .next h.took.resetBlock

/-- A run of any length takes machines that are alike to outcomes that are alike. -/
theorem State.Alike.runSteps (h : s.Alike t) (k : Nat) : OutcomesAlike (runSteps k s) (runSteps k t) := by
  induction k generalizing s t with
  | zero => exact .next h
  | succ k ih =>
    have hstep := h.step
    generalize hs : Machine.step s = o, ht : Machine.step t = p at hstep
    cases hstep with
    | next h' =>
      rw [runSteps_succ_next hs, runSteps_succ_next ht]
      exact ih h'
    | fault f =>
      rw [runSteps_succ_fault hs, runSteps_succ_fault ht]
      exact .fault _

/-- Outcomes that are alike look the same. -/
theorem OutcomesAlike.visibleOutcome {o p : Host.Outcome State Fault Refusal} (h : OutcomesAlike o p) :
    visibleOutcome o = visibleOutcome p := by
  cases h with
  | next h => exact congrArg Host.Outcome.next h.visible
  | fault f => rfl

/-- Next states that are alike have the same operation in progress. -/
theorem OutcomesAlike.running_eq {s' t' : State} (h : OutcomesAlike (.next s') (.next t')) :
    s'.running = t'.running := by
  cases h with
  | next h => exact h.running

end Sys2Proof.Machine
end

section
/-! PROOF. The statements of 10_state.md. -/

namespace Sys2Proof.Machine

/-- Settles O12: both steps deliver `respond` of the same decoded request. -/
theorem responseDependsOnTheRequestAlone : Obligations.ResponseDependsOnTheRequestAlone := by
  intro s₁ s₂ r es₁ es₂ hr₁ hr₂ he₁ he₂
  exact ⟨_, _, respond (decode r), (step_request hr₁ he₁).trans (exec_eq _ _),
    (step_request hr₂ he₂).trans (exec_eq _ _), rfl, rfl⟩

/-- Settles O30: the read's two rules, and under the invariant the cases of a step. -/
theorem responsePortsHoldTheLastResponse : Obligations.ResponsePortsHoldTheLastResponse := by
  refine ⟨fun s es _ he => ⟨fun hq => ⟨step_read_none he hq, State.readPort_of_none hq⟩,
    fun q hq => ⟨?_, State.readPort_of_some hq⟩, fun i => ⟨_, exec_eq i s, rfl, rfl, ?_⟩⟩,
    fun s t hinv hstep => hinv.step_response hstep⟩
  · rw [step_read_some he hq, State.took_of_events he]
  · have het : (s.deliver (respond i)).events = .read :: es := he
    rw [step_read_some het rfl, State.took_of_events het]

/-- Settles O37: the accepted operation's loop ends in the delivery of the one-step form. -/
theorem bitSerialRunEqualsTheOneStepForm : Obligations.BitSerialRunEqualsTheOneStepForm := by
  intro s r es hr he
  have hserial := (s.took.acceptOp_runInLoop (decode r)).runSteps_delivers (es := es) rfl
    (by rw [State.acceptOp_events, State.took_of_events he]; rfl)
  have hwhole : step { s with events := .request r :: es } =
      .next (State.deliver (respond (decode r)) { s with events := es }) :=
    (step_request (s := { s with events := .request r :: es }) hr rfl).trans (exec_eq _ _)
  rw [hwhole, runSteps_succ_next (step_accept hr he)]
  exact hserial

/-- Settles O40: the start is the loop's head, and idle machines that look the same are alike, which every run keeps. -/
theorem workingValuesAreInvisible : Obligations.WorkingValuesAreInvisible := by
  refine ⟨fun s r es hr he => ⟨_, step_accept hr he, rfl, ?_, rfl, ?_⟩, fun s₁ s₂ hr₁ hr₂ hv k => ?_⟩
  · rw [State.acceptOp_decoder, Decoder.start, lowBits_mantissaOf]
  · rw [State.acceptOp_events, State.took_of_events he]
  · have halike := (State.Alike.of_visible hr₁ hr₂ hv).runSteps k
    refine ⟨halike.visibleOutcome, fun t₁ t₂ h₁ h₂ => ?_⟩
    rw [h₁, h₂] at halike
    exact halike.running_eq

/-- Settles O6: the rule of a presented request, and the same for the request a word is presented as. -/
theorem stepPerformsThePresentedRequest : Obligations.StepPerformsThePresentedRequest := by
  refine ⟨fun s r es hr he => ?_, fun s nbits w hw hn => ?_⟩
  · rw [step_request hr he, State.took_of_events he]
  · rw [s.withFetchWord_of_lt hw hn, step_request (State.present_running _ _) (State.present_events _ _)]
    rfl

/-- Settles O51: the rules of a read and of a reset, which do not ask whether an operation is in progress. -/
theorem readsAndResetsDuringAnOperation : Obligations.ReadsAndResetsDuringAnOperation := by
  refine ⟨fun s i es _ he => ⟨step_read_none he, fun hq => ?_⟩, fun s es he => ⟨_, step_reset he, rfl, rfl, ?_⟩⟩
  · obtain ⟨q, hq⟩ := Option.ne_none_iff_exists'.mp hq
    rw [step_read_some he hq, State.took_of_events he]
  · rw [State.resetBlock_events, State.took_of_events he]

end Sys2Proof.Machine
end

section
/-! PROOF. The statements of 20_memory.md. -/

namespace Sys2Proof.Machine

/-- A request presented with nothing in progress: its response is delivered, and the events after it are still to come. -/
theorem step_request_delivers {s : State} {r : Request} {es : List Event} (hr : s.running = none)
    (he : s.events = .request r :: es) :
    step s = .next (State.deliver (respond (decode r)) { s with events := es }) := by
  rw [step_request hr he, exec_eq, State.took_of_events he]

/-- Settles O13, by induction on the list of requests: the first request's step leaves the block idle before the rest. -/
theorem kthResponseAnswersTheKthRequest : Obligations.KthResponseAnswersTheKthRequest := by
  intro rs es s k h hr he
  induction rs generalizing s k with
  | nil => exact absurd h (Nat.not_lt_zero k)
  | cons r rs ih =>
    have hstep := step_request_delivers hr he
    cases k with
    | zero => exact ⟨_, (runSteps_one s).trans hstep, rfl, rfl, rfl⟩
    | succ k =>
      rw [runSteps_succ_next hstep]
      exact ih _ k (Nat.lt_of_succ_lt_succ h) rfl rfl

/-- Settles O38: accepting and the bit steps within the loop move the working values only. -/
theorem noPartialResponseIsVisible : Obligations.NoPartialResponseIsVisible := by
  intro s r es k hr hk he
  have hstart : (s.took.acceptOp (decode r)).decoder.i = 0 := rfl
  have hloop := runSteps_bitSteps (s := s.took.acceptOp (decode r)) (k := k) (es := es) rfl
    (by rwa [hstart, Nat.zero_add]) (by rw [State.acceptOp_events, State.took_of_events he])
  refine ⟨_, (runSteps_succ_next (step_accept hr he)).trans hloop, rfl, rfl, ?_, rfl⟩
  rw [Decoder.steps_i, hstart, Nat.zero_add]

end Sys2Proof.Machine
end

section
/-! PROOF. Requests and operations: decode and encode undo each other, and the fields of a decoded request
(30_encoding.md R38, R39, R40). -/

namespace Sys2Proof

/-- The four operation codes. -/
theorem operationCode_cases (op : BitVec 2) : op = 0b00#2 ∨ op = 0b01#2 ∨ op = 0b10#2 ∨ op = 0b11#2 := by
  revert op
  decide

/-- Encoding what a request decodes to gives the request back. -/
@[simp] theorem encode_decode (r : Request) : encode (decode r) = r := by
  obtain ⟨op, x⟩ := r
  rcases operationCode_cases op with rfl | rfl | rfl | rfl <;> simp [encode, Instr.op, Instr.x]

/-- Decoding the request of an operation gives the operation back. -/
@[simp] theorem decode_encode (i : Instr) : decode (encode i) = i := by
  cases i <;> simp [encode, Instr.op, Instr.x]

/-- A request decodes to the one operation with its code and its operand. -/
theorem decode_eq_iff {r : Request} {i : Instr} : decode r = i ↔ r.op = i.op ∧ r.x = i.x := by
  constructor
  · rintro rfl
    exact ⟨congrArg Request.op (encode_decode r).symm, congrArg Request.x (encode_decode r).symm⟩
  · rintro ⟨hop, hx⟩
    have hr : r = encode i := by rw [encode, ← hop, ← hx]
    rw [hr, decode_encode]

/-- The code of the decoded operation is the request's. -/
@[simp] theorem decode_op (r : Request) : (decode r).op = r.op := (decode_eq_iff.mp rfl).1.symm

/-- F is bit 0 of an operation's code (30_encoding.md R39). -/
theorem Instr.width_eq_opWidth (i : Instr) : i.width = opWidth i.op := by
  cases i <;> simp [Instr.width, Instr.op, opWidth]

/-- K is bit 1 of an operation's code (30_encoding.md R39). -/
theorem Instr.kind_eq_opKind (i : Instr) : i.kind = opKind i.op := by
  cases i <;> simp [Instr.kind, Instr.op, opKind]

/-- The format bit is set exactly for width 52. -/
theorem opWidth_eq_w52_iff (op : BitVec 2) : opWidth op = .w52 ↔ op.getLsbD 0 = true := by simp [opWidth]

/-- The kind bit is set exactly for the decoder alone. -/
theorem opKind_eq_decodeOnly_iff (op : BitVec 2) : opKind op = .decodeOnly ↔ op.getLsbD 1 = true := by simp [opKind]

/-- Joining a word's two parts gives the word back. -/
@[simp] theorem Request.toWord_ofWord (w : ReqWord) : (Request.ofWord w).toWord = w := by
  apply BitVec.eq_of_toNat_eq
  rw [Request.toWord_toNat, Request.ofWord_op_toNat, Request.ofWord_x_toNat]
  exact Nat.div_add_mod' _ _

/-- Every request word is the word of the operation it decodes to. -/
theorem encodeWord_decodeWord (w : ReqWord) : encodeWord (decodeWord w) = w := by
  rw [encodeWord, decodeWord, encode_decode, Request.toWord_ofWord]

/-- A table word that is a request word is decoded as that word. -/
theorem decodeTableWord_of_lt {nbits w : Nat} (hw : w < 2 ^ 66) (hn : w < 2 ^ nbits) :
    decodeTableWord nbits w = some (decodeWord (BitVec.ofNat 66 w)) := by
  have htable : tableWord nbits w = w := Nat.mod_eq_of_lt hn
  have hok : requestWordOk w = true := decide_eq_true hw
  rw [decodeTableWord, decodeNat, htable, if_pos hok]

/-- The table has one mask (30_encoding.md R40). -/
theorem Instr.row_mask (i : Instr) : i.row.mask = 0x30000000000000000#66 := by cases i <;> rfl

/-- A row's match is its operation's code at the place of `op` (30_encoding.md R40). -/
theorem Instr.row_pattern_toNat (i : Instr) : i.row.pattern.toNat = i.op.toNat * 2 ^ 64 := by
  cases i <;> simp [Instr.row, Instr.op]

/-- A word matches an operation's row exactly when it decodes to an operation of that code (30_encoding.md R40). -/
theorem and_row_mask_eq_iff (w : ReqWord) (i : Instr) :
    w &&& i.row.mask = i.row.pattern ↔ (decodeWord w).op = i.op := by
  rw [decodeWord, decode_op, ← BitVec.toNat_inj, ← BitVec.toNat_inj, i.row_mask, opcodeMask_toNat, i.row_pattern_toNat,
    Request.ofWord_op_toNat]
  exact Nat.mul_left_inj (by positivity)

/-- A word matches the row of an operation with the word's operand exactly when it decodes to that operation. -/
theorem and_row_mask_eq_iff_decodeWord {w : ReqWord} {i : Instr} (hx : i.x = w.setWidth 64) :
    w &&& i.row.mask = i.row.pattern ↔ decodeWord w = i := by
  have hword : (Request.ofWord w).x = i.x := by
    rw [hx, ← BitVec.toNat_inj, Request.ofWord_x_toNat, BitVec.toNat_setWidth]
  rw [and_row_mask_eq_iff, decodeWord, decode_op, decode_eq_iff, and_iff_left hword]

end Sys2Proof
end

section
/-! PROOF. An operation's response reads no more of the operand than its slice (30_encoding.md R41, R45). -/

namespace Sys2Proof.Machine

/-- DECOMP.S reads `x[31:0]`. -/
theorem respond_decompS_of_slice {x y : Word64} (h : x.toNat % 2 ^ 32 = y.toNat % 2 ^ 32) :
    respond (.decompS x) = respond (.decompS y) := by
  have hslice : singlePattern x = singlePattern y := by
    rwa [← BitVec.toNat_inj, singlePattern_toNat, singlePattern_toNat]
  simp only [respond, decompSResponse, hslice]

/-- MDEC.23 reads `x[22:0]`. -/
theorem respond_mdec23_of_slice {x y : Word64} (h : x.toNat % 2 ^ 23 = y.toNat % 2 ^ 23) :
    respond (.mdec23 x) = respond (.mdec23 y) := by
  have hslice : operandField23 x = operandField23 y := by
    rwa [← BitVec.toNat_inj, operandField23_toNat, operandField23_toNat]
  simp only [respond, mdec23Response, hslice]

/-- MDEC.52 reads `x[51:0]`. -/
theorem respond_mdec52_of_slice {x y : Word64} (h : x.toNat % 2 ^ 52 = y.toNat % 2 ^ 52) :
    respond (.mdec52 x) = respond (.mdec52 y) := by
  have hslice : operandField52 x = operandField52 y := by
    rwa [← BitVec.toNat_inj, operandField52_toNat, operandField52_toNat]
  simp only [respond, mdec52Response, hslice]

/-- Equal responses give equal outcomes. -/
theorem exec_congr {i j : Instr} (h : respond i = respond j) (s : State) : exec i s = exec j s := by
  rw [exec_eq, exec_eq, h]

/-- Equal outcomes come of equal responses: the outcome holds the response whole. -/
theorem respond_eq_of_exec_eq {i j : Instr} {s : State} (h : exec i s = exec j s) : respond i = respond j := by
  rw [exec_eq, exec_eq] at h
  exact Option.some.inj (congrArg State.response (Host.Outcome.next.inj h))

end Sys2Proof.Machine
end

section
/-! PROOF. The decoder's value as a fraction, and the value of the pattern that encodes it (30_encoding.md R49,
40_mantissa_decoder.md R56). -/

namespace Sys2Proof.Machine

/-- The first `k` bits below bit `w` as a weighted sum: what the leading bits of `m` give, less what stands above bit `w`. -/
theorem sum_mantBit (w : Width) (m : Nat) {k : Nat} (hk : k ≤ w.bits) :
    ∑ i ∈ Finset.range k, mantBit w m i * (1 / 2 ^ (i + 1)) =
      ((m / 2 ^ (w.bits - k) : Nat) : Rat) / 2 ^ k - ((m / 2 ^ w.bits : Nat) : Rat) := by
  induction k with
  | zero => simp
  | succ k ih =>
    obtain ⟨j, hj⟩ : ∃ j, w.bits = k + 1 + j := ⟨w.bits - (k + 1), by omega⟩
    have hbit : mantBit w m k = ((m.testBit j).toNat : Rat) := by
      have hj₀ : w.bits - 1 - k = j := by omega
      rw [mantBit, hj₀]
      cases m.testBit j <;> simp
    have hj₁ : w.bits - k = j + 1 := by omega
    have hj₂ : w.bits - (k + 1) = j := by omega
    rw [Finset.sum_range_succ, ih (by omega), hbit, hj₁, hj₂, div_two_pow_eq_succ m j]
    push_cast
    field_simp
    ring

/-- `MantDec` is one plus the fraction of the low bits (40_mantissa_decoder.md R56). -/
theorem mantDec_eq (w : Width) (m : Nat) : mantDec w m = 1 + ((m % 2 ^ w.bits : Nat) : Rat) / 2 ^ w.bits := by
  have hm : (m : Rat) = ((m % 2 ^ w.bits : Nat) : Rat) + 2 ^ w.bits * ((m / 2 ^ w.bits : Nat) : Rat) := by
    exact_mod_cast (Nat.mod_add_div m (2 ^ w.bits)).symm
  rw [mantDec, sum_mantBit w m le_rfl, Nat.sub_self, pow_zero, Nat.div_one, hm]
  field_simp
  ring

/-- `2^w` scaled up to 2^52, the place a field of either width is delivered at (40_mantissa_decoder.md R60). -/
theorem two_pow_bits_mul (w : Width) : 2 ^ w.bits * 2 ^ (52 - w.bits) = 2 ^ 52 := by
  rw [← pow_add, Nat.add_sub_cancel' w.bits_le]

/-- A fraction of `w` bits as one of 52 (40_mantissa_decoder.md R60). -/
theorem div_two_pow_bits_eq (w : Width) (n : Nat) :
    (n : Rat) / 2 ^ w.bits = ((n * 2 ^ (52 - w.bits) : Nat) : Rat) / 2 ^ 52 := by
  have hpow : (2 : Rat) ^ w.bits * 2 ^ (52 - w.bits) = 2 ^ 52 := by exact_mod_cast two_pow_bits_mul w
  rw [← hpow, Nat.cast_mul, Nat.cast_pow, Nat.cast_ofNat, mul_div_mul_right _ _ (by positivity)]

/-- Every value of `MantDec` is one plus a 52-bit fraction (30_encoding.md R49). -/
theorem exists_mantDec_eq (w : Width) (m : Nat) : ∃ f : Nat, f < 2 ^ 52 ∧ mantDec w m = 1 + (f : Rat) / 2 ^ 52 := by
  refine ⟨m % 2 ^ w.bits * 2 ^ (52 - w.bits), ?_, by rw [mantDec_eq, div_two_pow_bits_eq]⟩
  rw [← two_pow_bits_mul w]
  exact Nat.mul_lt_mul_of_pos_right (Nat.mod_lt _ (by positivity)) (by positivity)

/-- A pattern with sign 0 and the exponent field of 1 stands for one plus the fraction of its mantissa field. -/
theorem normalDoubleValue_of_toNat {p : Pattern64} {f : Nat} (hf : f < 2 ^ 52)
    (hp : p.toNat = 0x3FF0000000000000 + f) : normalDoubleValue p = 1 + (f : Rat) / 2 ^ 52 := by
  have hsign : (doubleSign p).toNat = 0 := by rw [doubleSign_toNat]; omega
  have hexp : doubleExponent p = 0 := by
    have hfield : (doubleExpField p).toNat = 1023 := by rw [doubleExpField_toNat]; omega
    simp only [doubleExponent, hfield, Config.biasD, sub_self]
  have hmant : (doubleMantField p).toNat = f := by rw [doubleMantField_toNat]; omega
  rw [normalDoubleValue, hsign, hexp, hmant]
  simp

/-- `B64(1 + f·2^-52)` is the field `f` beside the sign and exponent bits of 1 (30_encoding.md R49). -/
theorem b64_eq_or {f : Nat} (hf : f < 2 ^ 52) :
    b64 (1 + (f : Rat) / 2 ^ 52) = 0x3FF0000000000000#64 ||| BitVec.ofNat 64 f := by
  have hfield : (BitVec.ofNat 64 f).toNat = f := Nat.mod_eq_of_lt (by omega)
  apply BitVec.eq_of_toNat_eq
  rw [b64_toNat hf, one_or_field (by rwa [hfield]), hfield]

end Sys2Proof.Machine
end

section
/-! PROOF. The statements of 30_encoding.md. -/

namespace Sys2Proof.Machine

/-- Settles O2: each row's mask and match by the rule of a row, the operation code and its two bits by those of `op`. -/
theorem opcodeRowsSelectTheOperations : Obligations.OpcodeRowsSelectTheOperations := by
  intro w
  refine ⟨and_row_mask_eq_iff_decodeWord (i := .decompS _) rfl, and_row_mask_eq_iff_decodeWord (i := .decompD _) rfl,
    and_row_mask_eq_iff_decodeWord (i := .mdec23 _) rfl, and_row_mask_eq_iff_decodeWord (i := .mdec52 _) rfl,
    decode_op _, fun i => ⟨beq_iff_eq.trans (and_row_mask_eq_iff w i), ?_, ?_⟩⟩
  · rw [i.kind_eq_opKind, opKind_eq_decodeOnly_iff]
  · rw [i.width_eq_opWidth, opWidth_eq_w52_iff]

/-- Settles O3: the decoded operation has the request's code, whose two bits give width and kind. -/
theorem operationCodeBitsGiveWidthAndKind : Obligations.OperationCodeBitsGiveWidthAndKind := by
  intro r
  rw [Instr.width_eq_opWidth, Instr.kind_eq_opKind, decode_op]
  refine ⟨?_, rfl⟩
  rw [opWidth]
  split
  · rfl
  · rfl

/-- Settles O4: the word is that of the operation it decodes to, and a presented request is performed, which delivers. -/
theorem everyRequestWordIsAnOperation : Obligations.EveryRequestWordIsAnOperation := by
  refine ⟨fun w hw => ⟨_, decodeTableWord_of_lt hw (by omega), encodeWord_decodeWord _⟩, fun i => ?_,
    fun r s => ⟨_, (step_request (s.present_running r) (s.present_events r)).trans (exec_eq _ _)⟩, fun r => ?_⟩
  · cases i <;> rfl
  · cases (decode r).width
    · exact .inl rfl
    · exact .inr rfl

/-- Settles O11: the outcome delivers the response, which reads the operand's slice only; DECOMP.D's `raw` is all of it. -/
theorem ignoredOperandBitsHaveNoEffect : Obligations.IgnoredOperandBitsHaveNoEffect := by
  intro x y s
  exact ⟨fun h => exec_congr (respond_decompS_of_slice h) s, fun h => exec_congr (respond_mdec23_of_slice h) s,
    fun h => exec_congr (respond_mdec52_of_slice h) s, fun h => congrArg Response.raw (respond_eq_of_exec_eq h),
    fun i => ⟨_, exec_eq i s⟩⟩

/-- Settles O19: the pattern's number gives its fields, and a 23-bit fraction is a 52-bit one. -/
theorem b64EncodesItsValue : Obligations.B64EncodesItsValue :=
  ⟨fun _ hf => ⟨b64_eq_or hf, normalDoubleValue_of_toNat hf (b64_toNat hf)⟩, exists_mantDec_eq⟩

end Sys2Proof.Machine
end

section
/-! PROOF. The decoder's value over its field: only the low bits enter, its range, one bit's weight, and its order
(40_mantissa_decoder.md R56, R57, R64). -/

namespace Sys2Proof.Machine

/-- Within a field of `w` bits the fraction is the whole field (40_mantissa_decoder.md R56). -/
theorem mantDec_of_lt {w : Width} {m : Nat} (hm : m < 2 ^ w.bits) : mantDec w m = 1 + (m : Rat) / 2 ^ w.bits := by
  rw [mantDec_eq, Nat.mod_eq_of_lt hm]

/-- The hidden bit alone gives 1. -/
theorem one_le_mantDec (w : Width) (m : Nat) : 1 ≤ mantDec w m := by
  rw [mantDec_eq]
  exact le_add_of_nonneg_right (by positivity)

/-- The fraction stays below 1. -/
theorem mantDec_lt_two (w : Width) (m : Nat) : mantDec w m < 2 := by
  have hmod : ((m % 2 ^ w.bits : Nat) : Rat) < 2 ^ w.bits := by
    exact_mod_cast Nat.mod_lt m (Nat.two_pow_pos w.bits)
  have hfrac : ((m % 2 ^ w.bits : Nat) : Rat) / 2 ^ w.bits < 1 := (div_lt_one (by positivity)).mpr hmod
  rw [mantDec_eq]
  linarith

/-- A clear bit below bit `w` leaves room for itself within `w` bits: the bits from it on are an even number below an
even one. -/
theorem add_two_pow_lt_of_testBit_eq_false {n j w : Nat} (hj : j < w) (hn : n < 2 ^ w) (hbit : n.testBit j = false) :
    n + 2 ^ j < 2 ^ w := by
  obtain ⟨d, rfl⟩ : ∃ d, w = d + 1 + j := ⟨w - j - 1, by omega⟩
  have heven := div_two_pow_eq_succ n j
  rw [hbit, Bool.toNat_false, add_zero] at heven
  rw [pow_add] at hn ⊢
  have hhigh : n / 2 ^ j < 2 ^ (d + 1) := (Nat.div_lt_iff_lt_mul (Nat.two_pow_pos j)).mpr hn
  rw [← Nat.div_lt_iff_lt_mul (Nat.two_pow_pos j), Nat.add_div_right n (Nat.two_pow_pos j)]
  omega

/-- Setting a clear bit below bit `w` adds its place value to the low bits. -/
theorem add_two_pow_mod_of_testBit_eq_false {m j w : Nat} (hj : j < w) (hbit : m.testBit j = false) :
    (m + 2 ^ j) % 2 ^ w = m % 2 ^ w + 2 ^ j := by
  have hplace : 2 ^ j % 2 ^ w = 2 ^ j := Nat.mod_eq_of_lt (Nat.pow_lt_pow_right one_lt_two hj)
  have hroom : m % 2 ^ w + 2 ^ j < 2 ^ w :=
    add_two_pow_lt_of_testBit_eq_false hj (Nat.mod_lt m (Nat.two_pow_pos w)) (by simp [Nat.testBit_mod_two_pow, hbit])
  rw [Nat.add_mod_of_add_mod_lt (by rwa [hplace]), hplace]

/-- The bit at position `j` weighs `2^-(w-j)` (40_mantissa_decoder.md R57). -/
theorem mantDec_add_two_pow {w : Width} {m j : Nat} (hj : j < w.bits) (hbit : m.testBit j = false) :
    mantDec w (m + 2 ^ j) = mantDec w m + 1 / 2 ^ (w.bits - j) := by
  have hweight : (2 : Rat) ^ j / 2 ^ w.bits = 1 / 2 ^ (w.bits - j) := by
    rw [← Nat.sub_add_cancel hj.le, pow_add, Nat.add_sub_cancel]
    field_simp
  rw [mantDec_eq, mantDec_eq, add_two_pow_mod_of_testBit_eq_false hj hbit, ← hweight]
  push_cast
  ring

/-- A larger field decodes to a larger value (40_mantissa_decoder.md R64). -/
theorem mantDec_lt_mantDec {w : Width} {m₁ m₂ : Nat} (hlt : m₁ < m₂) (hm : m₂ < 2 ^ w.bits) :
    mantDec w m₁ < mantDec w m₂ := by
  rw [mantDec_of_lt (hlt.trans hm), mantDec_of_lt hm]
  gcongr

/-- The largest field misses 2 by the weight of its last bit (40_mantissa_decoder.md R65). -/
theorem mantDec_two_pow_sub_one (w : Width) : mantDec w (2 ^ w.bits - 1) = 2 - 1 / 2 ^ w.bits := by
  have hpos := Nat.two_pow_pos w.bits
  rw [mantDec_of_lt (Nat.sub_one_lt hpos.ne'), Nat.cast_sub hpos]
  push_cast
  field_simp
  ring

end Sys2Proof.Machine
end

section
/-! PROOF. The delivered pattern: it is `B64` of the decoder's value, that value is what it stands for, and its sign and
exponent bits are those of 1 (40_mantissa_decoder.md R59, R60). -/

namespace Sys2Proof.Machine

/-- The low bits of the low bits. -/
@[simp] theorem lowBits_lowBits (w : Width) (m : Field52) : lowBits w (lowBits w m) = lowBits w m := by
  apply BitVec.eq_of_toNat_eq
  rw [lowBits_toNat, lowBits_toNat, Nat.mod_mod]

/-- The low bits are a field of `w` bits. -/
theorem lowBits_toNat_lt (w : Width) (m : Field52) : (lowBits w m).toNat < 2 ^ w.bits := by
  rw [lowBits_toNat]
  exact Nat.mod_lt _ (Nat.two_pow_pos _)

/-- The pattern of the decoder's value is the one-step pattern, whatever stands above the field
(40_mantissa_decoder.md R60). -/
theorem b64_mantDec (w : Width) (m : Field52) : b64 (mantDec w m.toNat) = significandPattern w m := by
  rw [mantDec_eq, ← lowBits_toNat, b64_fraction_eq_significandPattern (lowBits_toNat_lt w m), significandPattern,
    lowBits_lowBits, significandPattern]

/-- `B64` loses nothing of a decoder's value (40_mantissa_decoder.md R59). -/
theorem normalDoubleValue_b64_mantDec (w : Width) (m : Nat) : normalDoubleValue (b64 (mantDec w m)) = mantDec w m := by
  obtain ⟨f, hf, hq⟩ := exists_mantDec_eq w m
  rw [hq, normalDoubleValue_of_toNat hf (b64_toNat hf)]

/-- The field stands below the exponent field (40_mantissa_decoder.md R60). -/
theorem fraction_lt (w : Width) (m : Nat) : m % 2 ^ w.bits * 2 ^ (52 - w.bits) < 2 ^ 52 := by
  rw [← two_pow_bits_mul w]
  exact Nat.mul_lt_mul_of_pos_right (Nat.mod_lt _ (Nat.two_pow_pos _)) (Nat.two_pow_pos _)

/-- The sign bit is 0 (40_mantissa_decoder.md R60). -/
theorem significandPattern_sign (w : Width) (m : Field52) : (significandPattern w m).extractLsb' 63 1 = 0#1 := by
  have hfield := fraction_lt w m.toNat
  apply BitVec.eq_of_toNat_eq
  rw [← doubleSign, doubleSign_toNat, significandPattern_toNat, BitVec.toNat_ofNat]
  omega

/-- The exponent field is that of 1 (40_mantissa_decoder.md R60). -/
theorem significandPattern_expField (w : Width) (m : Field52) :
    (significandPattern w m).extractLsb' 52 11 = 0x3FF#11 := by
  have hfield := fraction_lt w m.toNat
  apply BitVec.eq_of_toNat_eq
  rw [← doubleExpField, doubleExpField_toNat, significandPattern_toNat, BitVec.toNat_ofNat]
  omega

/-- Width 52 delivers the field itself beside the exponent field (40_mantissa_decoder.md R60). -/
theorem significandPattern_w52 (m : Field52) :
    significandPattern .w52 m = 0x3FF0000000000000#64 ||| m.setWidth 64 := by
  simp [significandPattern, lowBits]

/-- Width 23 delivers the low 23 bits at the top of the mantissa field (40_mantissa_decoder.md R60). -/
theorem significandPattern_w23 (m : Field52) :
    significandPattern .w23 m = 0x3FF0000000000000#64 ||| ((m.extractLsb' 0 23).setWidth 64 <<< 29) := by
  rw [significandPattern, lowBits, BitVec.setWidth_setWidth (by decide)]
  rfl

/-- Patterns of fields order as the fields do (40_mantissa_decoder.md R64). -/
theorem significandPattern_toNat_lt {w : Width} {m₁ m₂ : Field52} (hlt : m₁.toNat < m₂.toNat)
    (hm : m₂.toNat < 2 ^ w.bits) : (significandPattern w m₁).toNat < (significandPattern w m₂).toNat := by
  rw [significandPattern_toNat, significandPattern_toNat, Nat.mod_eq_of_lt (hlt.trans hm), Nat.mod_eq_of_lt hm]
  gcongr

end Sys2Proof.Machine
end

section
/-! PROOF. The loop on any field: a run reads the low bits only, so it stands where a run on them does
(40_mantissa_decoder.md R58, R59). -/

namespace Sys2Proof.Machine

/-- A run starts from the low bits. -/
theorem Decoder.start_lowBits (w : Width) (m : Field52) : Decoder.start w (lowBits w m) = Decoder.start w m := by
  rw [Decoder.start, lowBits_lowBits, Decoder.start]

/-- Where a run on any field stands after `k` bit steps: where the low bits take it. -/
theorem Decoder.standsAt_steps_start (w : Width) (m : Field52) {k : Nat} (hk : k ≤ w.bits) :
    Decoder.standsAt w (m.toNat % 2 ^ w.bits) k (Decoder.steps w k (Decoder.start w m)) := by
  have hstart := Decoder.standsAt_start (lowBits_toNat_lt w m)
  rw [Decoder.start_lowBits, lowBits_toNat] at hstart
  simpa using hstart.steps (n := k) (by omega)

/-- The bit a run examines at step `k` is `m[w-1-k]` (40_mantissa_decoder.md R58). -/
theorem Decoder.steps_start_examinedBit (w : Width) (m : Field52) {k : Nat} (hk : k < w.bits) :
    (Decoder.steps w k (Decoder.start w m)).sh.getLsbD (w.bits - 1) = m.toNat.testBit (w.bits - 1 - k) := by
  have hbelow : w.bits - 1 - k < w.bits := by omega
  rw [(Decoder.standsAt_steps_start w m hk.le).examinedBit hk, Nat.testBit_mod_two_pow, decide_eq_true hbelow,
    Bool.true_and]

/-- The first `k` bits of a field of `w` bits are a number of `k` bits. -/
theorem leadingBits_lt (m : Nat) {k w : Nat} (hk : k ≤ w) : m % 2 ^ w / 2 ^ (w - k) < 2 ^ k := by
  rw [Nat.div_lt_iff_lt_mul (Nat.two_pow_pos _), ← pow_add, Nat.add_sub_cancel' hk]
  exact Nat.mod_lt _ (Nat.two_pow_pos _)

/-- One plus a fraction of `k` bits is a multiple of `2^-k` below 2: a number of `k + 1` bits over `2^k`
(40_mantissa_decoder.md R59). -/
theorem exists_one_add_div_two_pow_eq {n k : Nat} (hn : n < 2 ^ k) :
    ∃ q : Nat, q < 2 ^ (k + 1) ∧ 1 + (n : Rat) / 2 ^ k = (q : Rat) / 2 ^ k := by
  refine ⟨2 ^ k + n, by rw [pow_succ]; omega, ?_⟩
  push_cast
  field_simp

/-- The loop returns `MantDec` (40_mantissa_decoder.md R58). -/
theorem Decoder.run_acc (w : Width) (m : Field52) : (Decoder.run w m).acc = mantDec w m.toNat := by
  obtain ⟨hacc, -⟩ := Decoder.standsAt_steps_start w m le_rfl
  rw [Decoder.run, hacc, Nat.sub_self, pow_zero, Nat.div_one, mantDec_eq]

/-- The loop runs exactly W steps (40_mantissa_decoder.md R58). -/
theorem Decoder.run_i (w : Width) (m : Field52) : (Decoder.run w m).i = w.bits := by
  rw [Decoder.run, Decoder.steps_i, Decoder.start_i, Nat.zero_add]

end Sys2Proof.Machine
end

section
/-! PROOF. The fields of a response that the decoder gives or is given, for every operation
(41_format_decomposer.md R71; 40_mantissa_decoder.md R62, R63). -/

namespace Sys2Proof.Machine

/-- Every operation's mantissa field is the operand's low W bits (30_encoding.md R41, R42, R43). -/
theorem mantissaOf_toNat (i : Instr) : (mantissaOf i).toNat = i.x.toNat % 2 ^ i.width.bits := by
  have hfield := mantissaOf_lt i
  cases i with
  | decompS x =>
    simp only [mantissaOf, Instr.x, Instr.width, Width.bits_w23, BitVec.toNat_setWidth, singleMantField_toNat,
      singlePattern_toNat]
    omega
  | decompD x => exact doubleMantField_toNat x
  | mdec23 x =>
    simp only [mantissaOf, Instr.x, Instr.width, Width.bits_w23, BitVec.toNat_setWidth, operandField23_toNat]
    omega
  | mdec52 x => exact operandField52_toNat x

/-- Every operation answers its mantissa field on `mant`. -/
theorem respond_mant (i : Instr) : (respond i).mant = mantissaOf i := by
  cases i <;> rfl

/-- The number on `mant` is the operand's low W bits. -/
theorem respond_mant_toNat (i : Instr) : (respond i).mant.toNat = i.x.toNat % 2 ^ i.width.bits := by
  rw [respond_mant, mantissaOf_toNat]

/-- Every operation's significand is `B64` of its decoded mantissa field. -/
theorem respond_sig_eq_b64 (i : Instr) :
    (respond i).sig = b64 (mantDec i.width (i.x.toNat % 2 ^ i.width.bits)) := by
  rw [respond_sig, ← b64_mantDec, mantissaOf_toNat]

/-- The number on `sig`: those bits at their place beside the exponent field of 1 (40_mantissa_decoder.md R60). -/
theorem respond_sig_toNat (i : Instr) :
    (respond i).sig.toNat = 0x3FF0000000000000 + i.x.toNat % 2 ^ i.width.bits * 2 ^ (52 - i.width.bits) := by
  rw [respond_sig, significandPattern_toNat, mantissaOf_toNat, Nat.mod_mod]

/-- The decoder alone answers its field on `raw`, and 0 on `sign` and `exp` (40_mantissa_decoder.md R62, R63). -/
theorem respond_of_decodeOnly {i : Instr} (h : i.kind = .decodeOnly) :
    (respond i).raw.toNat = i.x.toNat % 2 ^ i.width.bits ∧ (respond i).sign.toNat = 0 ∧
      (respond i).exp.toInt = 0 := by
  have hexp : (twos12 0).toInt = 0 := twos12_toInt (by norm_num) (by norm_num)
  cases i with
  | decompS x => cases h
  | decompD x => cases h
  | mdec23 x =>
    refine ⟨?_, rfl, hexp⟩
    simp only [respond, mdec23Response, Instr.x, Instr.width, Width.bits_w23, BitVec.toNat_setWidth,
      operandField23_toNat]
    omega
  | mdec52 x =>
    refine ⟨?_, rfl, hexp⟩
    simp only [respond, mdec52Response, Instr.x, Instr.width, Width.bits_w52, BitVec.toNat_setWidth,
      operandField52_toNat]
    omega

end Sys2Proof.Machine
end

section
/-! PROOF. The statements of 40_mantissa_decoder.md. -/

namespace Sys2Proof.Machine

/-- Settles O9: the outcome delivers the response, whose fields are those of the decoder alone at width 23. -/
theorem mdec23GivesItsResponse : Obligations.Mdec23GivesItsResponse := by
  intro x s
  obtain ⟨hraw, hsign, hexp⟩ := respond_of_decodeOnly (i := .mdec23 x) rfl
  exact ⟨decode_mdec23 x, _, _, exec_eq _ s, rfl, hraw, hsign, hexp, respond_mant_toNat (.mdec23 x),
    respond_sig_eq_b64 (.mdec23 x), respond_sig_toNat (.mdec23 x), rfl, rfl⟩

/-- Settles O10: the same at width 52, where the field needs no shift. -/
theorem mdec52GivesItsResponse : Obligations.Mdec52GivesItsResponse := by
  intro x s
  obtain ⟨hraw, hsign, hexp⟩ := respond_of_decodeOnly (i := .mdec52 x) rfl
  have hsig : (respond (.mdec52 x)).sig.toNat = 0x3FF0000000000000 + x.toNat % 2 ^ 52 :=
    (respond_sig_toNat (.mdec52 x)).trans (congrArg (0x3FF0000000000000 + ·) (Nat.mul_one _))
  exact ⟨decode_mdec52 x, _, _, exec_eq _ s, rfl, hraw, hsign, hexp, respond_mant_toNat (.mdec52 x),
    respond_sig_eq_b64 (.mdec52 x), hsig, rfl, rfl⟩

/-- Settles O14: the weighted sum as a fraction, and the range of that fraction. -/
theorem mantDecIsOnePlusTheFraction : Obligations.MantDecIsOnePlusTheFraction :=
  fun w m => ⟨mantDec_eq w m, one_le_mantDec w m, mantDec_lt_two w m⟩

/-- Settles O15: setting a clear bit adds its place value to the low bits, and so its weight to the fraction. -/
theorem mantissaBitsWeighMostSignificantFirst : Obligations.MantissaBitsWeighMostSignificantFirst :=
  fun _ _ _ => mantDec_add_two_pow

/-- Settles O16: where the run stands after `k` steps, and `B64` exact on its last accumulator. -/
theorem partialSumsAreExact : Obligations.PartialSumsAreExact := by
  intro w m
  refine ⟨fun k hk => ?_, Decoder.run_acc w m, ?_⟩
  · obtain ⟨hacc, hwt, -, -⟩ := Decoder.standsAt_steps_start w m hk
    obtain ⟨n, hn, hsum⟩ := exists_one_add_div_two_pow_eq (leadingBits_lt m.toNat hk)
    exact ⟨hacc, hwt, Nat.succ_le_succ (hk.trans w.bits_le), n, hn, hacc.trans hsum⟩
  · rw [Decoder.run_acc, normalDoubleValue_b64_mantDec]

/-- Settles O17: where the run stands before each step gives the bit and the weight, where it ends the value. -/
theorem bitSerialLoopReturnsMantDec : Obligations.BitSerialLoopReturnsMantDec := by
  intro w m
  refine ⟨fun k hk => ⟨Decoder.steps_start_examinedBit w m hk, ?_⟩, Decoder.run_acc w m, Decoder.run_i w m⟩
  obtain ⟨-, hwt, -, -⟩ := Decoder.standsAt_steps_start w m hk.le
  exact hwt

/-- Settles O18: `B64` of the decoder's value is the one-step pattern, written out for each width. -/
theorem decoderPatternIsB64OfMantDec : Obligations.DecoderPatternIsB64OfMantDec := fun m =>
  ⟨(b64_mantDec .w52 m).trans (significandPattern_w52 m), (b64_mantDec .w23 m).trans (significandPattern_w23 m),
    fun w => ⟨(b64_mantDec w m).symm, significandPattern_sign w m, significandPattern_expField w m⟩⟩

/-- Settles O20: the delivered `sig` is `B64` of the decoder's value, which loses nothing. -/
theorem deliveredSignificandIsExact : Obligations.DeliveredSignificandIsExact := by
  intro i s
  refine ⟨_, respond i, exec_eq i s, rfl, ?_⟩
  rw [respond_sig, ← b64_mantDec, normalDoubleValue_b64_mantDec]

/-- Settles O21: fractions with one denominator order as their fields, and so do the fields in the pattern. -/
theorem decoderIsStrictlyIncreasing : Obligations.DecoderIsStrictlyIncreasing :=
  fun _ _ _ hlt hm => ⟨mantDec_lt_mantDec hlt hm, significandPattern_toNat_lt hlt hm⟩

/-- Settles O22: the two values, the second of which meets both bounds. -/
theorem decoderBoundaries : Obligations.DecoderBoundaries := by
  intro w
  have hmax := mantDec_two_pow_sub_one w
  exact ⟨by simp [mantDec_eq], hmax, mantDec_lt_two _ _, hmax.ge⟩

end Sys2Proof.Machine
end

section
/-! PROOF. The fields of a decomposer's response as slices of the operand, one formula for every pattern
(41_format_decomposer.md R67 to R70, R73), and their ranges (R68, R72). -/

namespace Sys2Proof.Machine

/-- DECOMP.S answers its 32-bit pattern on `raw` (41_format_decomposer.md R67). -/
theorem respond_decompS_raw_toNat (x : Word64) : (respond (.decompS x)).raw.toNat = x.toNat % 2 ^ 32 := by
  have hpattern := (singlePattern x).isLt
  rw [← singlePattern_toNat]
  exact (BitVec.toNat_setWidth 64 (singlePattern x)).trans (Nat.mod_eq_of_lt (by omega))

/-- DECOMP.S answers bit 31 on `sign` (41_format_decomposer.md R68). -/
theorem respond_decompS_sign (x : Word64) : (respond (.decompS x)).sign = x.extractLsb' 31 1 :=
  BitVec.extractLsb'_extractLsb'_of_le (by decide)

/-- DECOMP.D answers bit 63 on `sign` (41_format_decomposer.md R68). -/
theorem respond_decompD_sign (x : Word64) : (respond (.decompD x)).sign = x.extractLsb' 63 1 := rfl

/-- DECOMP.S answers its pattern's mantissa field on `mant` (41_format_decomposer.md R70). -/
theorem respond_decompS_mant_toNat (x : Word64) :
    (respond (.decompS x)).mant.toNat = (singleMantField (singlePattern x)).toNat := by
  have hfield := (singleMantField (singlePattern x)).isLt
  exact (BitVec.toNat_setWidth 52 (singleMantField (singlePattern x))).trans (Nat.mod_eq_of_lt (by omega))

/-- The 12 bits of `exp` hold DECOMP.S's exponent without wrapping (41_format_decomposer.md R69). -/
theorem exponentOf_respond_decompS_eq_singleExponent (x : Word64) :
    exponentOf (respond (.decompS x)) = singleExponent (singlePattern x) := by
  have hfield := (singleExpField (singlePattern x)).isLt
  have hexp : singleExponent (singlePattern x) = ((singleExpField (singlePattern x)).toNat : Int) - 127 := rfl
  exact twos12_toInt (by omega) (by omega)

/-- The 12 bits of `exp` hold DECOMP.D's exponent without wrapping (41_format_decomposer.md R69). -/
theorem exponentOf_respond_decompD_eq_doubleExponent (x : Word64) :
    exponentOf (respond (.decompD x)) = doubleExponent x := by
  have hfield := (doubleExpField x).isLt
  have hexp : doubleExponent x = ((doubleExpField x).toNat : Int) - 1023 := rfl
  exact twos12_toInt (e := doubleExponent x) (by omega) (by omega)

/-- DECOMP.S's exponent is `x[30:23]` less the bias (41_format_decomposer.md R69). -/
theorem exponentOf_respond_decompS (x : Word64) :
    exponentOf (respond (.decompS x)) = ((x.extractLsb' 23 8).toNat : Int) - 127 := by
  have hfield : singleExpField (singlePattern x) = x.extractLsb' 23 8 :=
    BitVec.extractLsb'_extractLsb'_of_le (by decide)
  rw [exponentOf_respond_decompS_eq_singleExponent, singleExponent, hfield]
  rfl

/-- DECOMP.D's exponent is `x[62:52]` less the bias (41_format_decomposer.md R69). -/
theorem exponentOf_respond_decompD (x : Word64) :
    exponentOf (respond (.decompD x)) = ((x.extractLsb' 52 11).toNat : Int) - 1023 :=
  exponentOf_respond_decompD_eq_doubleExponent x

/-- An all-zero exponent field gives DECOMP.S the exponent `-BIAS` (41_format_decomposer.md R73). -/
theorem exponentOf_respond_decompS_of_zeros {x : Word64} (h : x.extractLsb' 23 8 = 0#8) :
    exponentOf (respond (.decompS x)) = -127 := by
  rw [exponentOf_respond_decompS, h]
  rfl

/-- An all-one exponent field gives DECOMP.S the exponent `BIAS + 1` (41_format_decomposer.md R73). -/
theorem exponentOf_respond_decompS_of_ones {x : Word64} (h : x.extractLsb' 23 8 = 255#8) :
    exponentOf (respond (.decompS x)) = 128 := by
  rw [exponentOf_respond_decompS, h]
  rfl

/-- An all-zero exponent field gives DECOMP.D the exponent `-BIAS` (41_format_decomposer.md R73). -/
theorem exponentOf_respond_decompD_of_zeros {x : Word64} (h : x.extractLsb' 52 11 = 0#11) :
    exponentOf (respond (.decompD x)) = -1023 := by
  rw [exponentOf_respond_decompD, h]
  rfl

/-- An all-one exponent field gives DECOMP.D the exponent `BIAS + 1` (41_format_decomposer.md R73). -/
theorem exponentOf_respond_decompD_of_ones {x : Word64} (h : x.extractLsb' 52 11 = 2047#11) :
    exponentOf (respond (.decompD x)) = 1024 := by
  rw [exponentOf_respond_decompD, h]
  rfl

/-- DECOMP.S's exponent range (41_format_decomposer.md R72). -/
theorem exponentOf_respond_decompS_bounds (x : Word64) :
    -127 ≤ exponentOf (respond (.decompS x)) ∧ exponentOf (respond (.decompS x)) ≤ 128 := by
  have hfield := (x.extractLsb' 23 8).isLt
  rw [exponentOf_respond_decompS]
  omega

/-- DECOMP.D's exponent range (41_format_decomposer.md R72). -/
theorem exponentOf_respond_decompD_bounds (x : Word64) :
    -1023 ≤ exponentOf (respond (.decompD x)) ∧ exponentOf (respond (.decompD x)) ≤ 1024 := by
  have hfield := (x.extractLsb' 52 11).isLt
  rw [exponentOf_respond_decompD]
  omega

/-- An exponent in a range about 0 has its pattern at one of the two ends: negative ones count down from 2^12
(30_encoding.md R47). -/
theorem exp_toNat_of_exponentOf_bounds {r : Response} {lo hi : Nat}
    (h : -(lo : Int) ≤ exponentOf r ∧ exponentOf r ≤ hi) :
    2 ^ 12 - lo ≤ r.exp.toNat ∨ r.exp.toNat ≤ hi := by
  rw [exponentOf, BitVec.toInt_eq_toNat_cond] at h
  split at h <;> omega

/-- The top bit of a pattern is 1 exactly when its signed reinterpretation is negative (41_format_decomposer.md R68). -/
theorem topBit_eq_one_iff_toInt_neg {n : Nat} (p : BitVec n) : p.extractLsb' (n - 1) 1 = 1#1 ↔ p.toInt < 0 := by
  rw [← beq_iff_eq, ← BitVec.getLsbD_eq_extractLsb', ← BitVec.msb_eq_getLsbD_last, BitVec.msb_eq_toInt,
    decide_eq_true_iff]

/-- Every operation's significand pattern is that of a value in [1, 2) (41_format_decomposer.md R72). -/
theorem respond_sig_toNat_bounds (i : Instr) :
    0x3FF0000000000000 ≤ (respond i).sig.toNat ∧ (respond i).sig.toNat ≤ 0x3FFFFFFFFFFFFFFF := by
  have hfield := fraction_lt i.width i.x.toNat
  rw [respond_sig_toNat]
  omega

/-- Operations of one width with the same low W bits agree on `mant` and `sig` (41_format_decomposer.md R78). -/
theorem respond_mant_sig_congr {i j : Instr} (hw : i.width = j.width)
    (hx : i.x.toNat % 2 ^ i.width.bits = j.x.toNat % 2 ^ i.width.bits) :
    (respond i).mant = (respond j).mant ∧ (respond i).sig = (respond j).sig := by
  have hfield : mantissaOf i = mantissaOf j := by
    rw [← BitVec.toNat_inj, mantissaOf_toNat, mantissaOf_toNat, hx, hw]
  rw [respond_mant, respond_mant, respond_sig, respond_sig, hfield, hw]
  exact ⟨rfl, rfl⟩

end Sys2Proof.Machine
end

section
/-! PROOF. The product a response stands for: `(-1)^sign * MantDec(mant, W) * 2^exponent`, one formula for every pattern
(41_format_decomposer.md R76, R77). -/

namespace Sys2Proof.Machine

/-- `sig` stands for exactly the decoded mantissa field (40_mantissa_decoder.md R59). -/
theorem normalDoubleValue_respond_sig (i : Instr) :
    normalDoubleValue (respond i).sig = mantDec i.width (respond i).mant.toNat := by
  rw [respond_sig, ← b64_mantDec, normalDoubleValue_b64_mantDec, respond_mant]

/-- The response's product, with the decoder's value for the significand (41_format_decomposer.md R76). -/
theorem respond_value (i : Instr) : (respond i).value =
    (-1) ^ (respond i).sign.toNat * mantDec i.width (respond i).mant.toNat * 2 ^ exponentOf (respond i) := by
  rw [Response.value, normalDoubleValue_respond_sig]

/-- The response's product, with the significand as one plus the field's fraction. -/
theorem respond_value_eq_fraction (i : Instr) : (respond i).value =
    (-1) ^ (respond i).sign.toNat * (1 + ((respond i).mant.toNat : Rat) / 2 ^ i.width.bits) *
      2 ^ exponentOf (respond i) := by
  rw [respond_value, mantDec_of_lt (by rw [respond_mant]; exact mantissaOf_lt i)]

/-- The response's product at a negative exponent. -/
theorem respond_value_of_exponentOf_eq_neg {i : Instr} {b : Nat} (he : exponentOf (respond i) = -(b : Int)) :
    (respond i).value =
      (-1) ^ (respond i).sign.toNat * (1 + ((respond i).mant.toNat : Rat) / 2 ^ i.width.bits) / 2 ^ b := by
  rw [respond_value_eq_fraction, he, zpow_neg, zpow_natCast, ← div_eq_mul_inv]

/-- The response's product at an exponent that is not negative. -/
theorem respond_value_of_exponentOf_eq_natCast {i : Instr} {b : Nat} (he : exponentOf (respond i) = (b : Int)) :
    (respond i).value =
      (-1) ^ (respond i).sign.toNat * (1 + ((respond i).mant.toNat : Rat) / 2 ^ i.width.bits) * 2 ^ b := by
  rw [respond_value_eq_fraction, he, zpow_natCast]

/-- The formula of a normalized single pattern's value gives DECOMP.S's product, whatever the pattern. -/
theorem respond_decompS_value (x : Word64) :
    (respond (.decompS x)).value = normalSingleValue (singlePattern x) := by
  rw [respond_value_eq_fraction, respond_decompS_mant_toNat, exponentOf_respond_decompS_eq_singleExponent]
  rfl

/-- The formula of a normalized double pattern's value gives DECOMP.D's product, whatever the pattern. -/
theorem respond_decompD_value (x : Word64) : (respond (.decompD x)).value = normalDoubleValue x := by
  rw [respond_value_eq_fraction, exponentOf_respond_decompD_eq_doubleExponent]
  rfl

/-- With the leading 1 and exponent `-BIAS` a product is never the subnormal's, without it and with `1 - BIAS`: equality
would need the fraction to be 1 (41_format_decomposer.md R77). -/
theorem normal_product_ne_subnormal {f : Rat} (hf : f < 1) (k : Nat) (b : Int) :
    (-1) ^ k * (1 + f) * 2 ^ (-b) ≠ (-1) ^ k * f * 2 ^ (1 - b) := by
  intro h
  have hpow : (2 : Rat) ^ (1 - b) = 2 * 2 ^ (-b) := by rw [sub_eq_add_neg, zpow_add₀ two_ne_zero, zpow_one]
  have hunit : (-1 : Rat) ^ k * 2 ^ (-b) ≠ 0 := by positivity
  have hcancel : 1 + f = 2 * f := mul_left_cancel₀ hunit (by rw [hpow] at h; linear_combination h)
  linarith

/-- A response with exponent `-BIAS` never stands for the subnormal with its sign and mantissa field
(41_format_decomposer.md R77). -/
theorem respond_value_ne_subnormal {i : Instr} {b : Int} (he : exponentOf (respond i) = -b) :
    (respond i).value ≠
      (-1) ^ (respond i).sign.toNat * (((respond i).mant.toNat : Rat) / 2 ^ i.width.bits) * 2 ^ (1 - b) := by
  have hmant : ((respond i).mant.toNat : Rat) < 2 ^ i.width.bits := by
    rw [respond_mant]
    exact_mod_cast mantissaOf_lt i
  rw [respond_value_eq_fraction, he]
  exact normal_product_ne_subnormal ((div_lt_one (by positivity)).mpr hmant) _ _

/-- An all-zero exponent field: DECOMP.S's product is not the subnormal single's value (41_format_decomposer.md R77). -/
theorem respond_decompS_value_ne_subnormal {x : Word64} (he : exponentOf (respond (.decompS x)) = -127) :
    (respond (.decompS x)).value ≠ subnormalSingleValue (singlePattern x) := by
  rw [subnormalSingleValue, ← respond_decompS_mant_toNat]
  exact respond_value_ne_subnormal he

/-- An all-zero exponent field: DECOMP.D's product is not the subnormal double's value (41_format_decomposer.md R77). -/
theorem respond_decompD_value_ne_subnormal {x : Word64} (he : exponentOf (respond (.decompD x)) = -1023) :
    (respond (.decompD x)).value ≠ subnormalDoubleValue x :=
  respond_value_ne_subnormal he

end Sys2Proof.Machine
end

section
/-! PROOF. The statements of 41_format_decomposer.md. -/

namespace Sys2Proof.Machine

/-- Settles O7: the outcome delivers the response, whose fields are slices of the operand. -/
theorem decompSGivesItsResponse : Obligations.DecompSGivesItsResponse := by
  intro x s
  refine ⟨decode_decompS x, _, _, exec_eq _ s, rfl, respond_decompS_raw_toNat x, ?_, ?_,
    respond_mant_toNat (.decompS x), respond_sig_eq_b64 (.decompS x), respond_sig_toNat (.decompS x), rfl, rfl⟩
  · rw [respond_decompS_sign, BitVec.extractLsb'_toNat, Nat.shiftRight_eq_div_pow, pow_one]
  · rw [← exponentOf, exponentOf_respond_decompS, BitVec.extractLsb'_toNat, Nat.shiftRight_eq_div_pow]

/-- Settles O8: the same at width 52, where `raw` is the operand and the field needs no shift. -/
theorem decompDGivesItsResponse : Obligations.DecompDGivesItsResponse := by
  intro x s
  have hsig : (respond (.decompD x)).sig.toNat = 0x3FF0000000000000 + x.toNat % 2 ^ 52 :=
    (respond_sig_toNat (.decompD x)).trans (congrArg (0x3FF0000000000000 + ·) (Nat.mul_one _))
  refine ⟨decode_decompD x, _, _, exec_eq _ s, rfl, rfl, doubleSign_toNat x, ?_,
    respond_mant_toNat (.decompD x), respond_sig_eq_b64 (.decompD x), hsig, rfl, rfl⟩
  rw [← exponentOf, exponentOf_respond_decompD, BitVec.extractLsb'_toNat, Nat.shiftRight_eq_div_pow]

/-- Settles O23: the sign field is the top bit of the pattern, the sign of its signed reinterpretation. -/
theorem signIsThatOfTheSignedReinterpretation : Obligations.SignIsThatOfTheSignedReinterpretation := by
  intro x s
  exact ⟨_, _, _, _, exec_eq (.decompS x) s, rfl, exec_eq (.decompD x) s, rfl, respond_decompS_sign x,
    topBit_eq_one_iff_toInt_neg (singlePattern x), respond_decompD_sign x, topBit_eq_one_iff_toInt_neg x⟩

/-- Settles O24: the ranges of the exponents, and of their patterns and the significand's. -/
theorem resultRanges : Obligations.ResultRanges := by
  intro x s
  have hS := exponentOf_respond_decompS_bounds x
  have hD := exponentOf_respond_decompD_bounds x
  exact ⟨_, _, _, _, exec_eq (.decompS x) s, rfl, exec_eq (.decompD x) s, rfl, hS, hD,
    exp_toNat_of_exponentOf_bounds hS, exp_toNat_of_exponentOf_bounds hD, respond_sig_toNat_bounds _,
    respond_sig_toNat_bounds _⟩

/-- Settles O25: one formula per field, which at the special exponent fields gives the two exponents of each width. -/
theorem noPatternIsASpecialCase : Obligations.NoPatternIsASpecialCase := by
  intro x s
  refine ⟨_, _, _, _, exec_eq (.decompS x) s, rfl, exec_eq (.decompD x) s, rfl, respond_decompS_sign x,
    exponentOf_respond_decompS x, respond_mant_toNat (.decompS x), ?_, respond_decompD_sign x,
    exponentOf_respond_decompD x, respond_mant_toNat (.decompD x), ?_, exponentOf_respond_decompS_of_zeros,
    exponentOf_respond_decompS_of_ones, exponentOf_respond_decompD_of_zeros, exponentOf_respond_decompD_of_ones⟩
  · rw [respond_mant_toNat]
    exact respond_sig_eq_b64 (.decompS x)
  · rw [respond_mant_toNat]
    exact respond_sig_eq_b64 (.decompD x)

/-- Settles O26: the product's formula is that of a normalized pattern's value. -/
theorem normalizedPatternsAreReconstructed : Obligations.NormalizedPatternsAreReconstructed := by
  intro x s
  exact ⟨_, _, _, _, exec_eq (.decompS x) s, rfl, exec_eq (.decompD x) s, rfl,
    fun _ => ⟨respond_value (.decompS x), respond_decompS_value x⟩,
    fun _ => ⟨respond_value (.decompD x), respond_decompD_value x⟩⟩

/-- Settles O27: the products at the exponents of the special patterns, and that the leading 1 sets them apart from the
subnormals' values. -/
theorem nonNormalizedPatternsAreNotReconstructed : Obligations.NonNormalizedPatternsAreNotReconstructed := by
  intro x s
  refine ⟨_, _, _, _, exec_eq (.decompS x) s, rfl, exec_eq (.decompD x) s, rfl, fun h => ?_, fun h => ?_, fun h => ?_,
    fun h => ?_⟩
  · have he := exponentOf_respond_decompS_of_zeros h
    exact ⟨respond_value_of_exponentOf_eq_neg (b := 127) he, respond_decompS_value_ne_subnormal he⟩
  · have he := exponentOf_respond_decompD_of_zeros h
    exact ⟨respond_value_of_exponentOf_eq_neg (b := 1023) he, respond_decompD_value_ne_subnormal he⟩
  · exact respond_value_of_exponentOf_eq_natCast (b := 128) (exponentOf_respond_decompS_of_ones h)
  · exact respond_value_of_exponentOf_eq_natCast (b := 1024) (exponentOf_respond_decompD_of_ones h)

/-- Settles O28: both operations read the same low bits at the same width. -/
theorem decomposerAgreesWithTheDecoder : Obligations.DecomposerAgreesWithTheDecoder := by
  intro x s
  obtain ⟨hmantS, hsigS⟩ := respond_mant_sig_congr (i := .decompS x)
    (j := .mdec23 ((x.extractLsb' 0 23).setWidth 64)) rfl (by simp [Instr.x, Instr.width])
  obtain ⟨hmantD, hsigD⟩ := respond_mant_sig_congr (i := .decompD x)
    (j := .mdec52 ((x.extractLsb' 0 52).setWidth 64)) rfl (by simp [Instr.x, Instr.width])
  exact ⟨_, _, _, _, _, _, _, _, exec_eq (.decompS x) s, rfl, exec_eq (.mdec23 _) s, rfl, exec_eq (.decompD x) s, rfl,
    exec_eq (.mdec52 _) s, rfl, hmantS, hsigS, hmantD, hsigD⟩

end Sys2Proof.Machine
end

section
/-! PROOF. Digit texts: what is written on a fixed number of digits reads back, and decimal texts begin with no zero
(45_host_driver.md R91, R92). -/

namespace Sys2Proof.Machine

/-- A digit's character stands for that digit. -/
theorem hexValue_digitChar {d : Nat} (h : d < 16) : hexValue (digitChar d) = some d := by
  revert d
  decide

/-- The digits below ten are the decimal ones. -/
theorem digitChar_mem_decimalDigits {d : Nat} (h : d < 10) : digitChar d ∈ decimalDigits := by
  revert d
  decide

/-- The digits below sixteen are the decimal ones and upper-case letters. -/
theorem digitChar_mem_upperHex {d : Nat} (h : d < 16) : digitChar d ∈
    ['0', '1', '2', '3', '4', '5', '6', '7', '8', '9', 'A', 'B', 'C', 'D', 'E', 'F'] := by
  revert d
  decide

/-- Only the digit 0 is written `0`. -/
theorem eq_zero_of_digitChar_eq_zero {d : Nat} (h : d < 10) (hc : digitChar d = '0') : d = 0 := by
  revert d
  decide

@[simp] theorem fixedDigits_zero (b v : Nat) : fixedDigits b 0 v = [] := rfl

theorem fixedDigits_succ (b n v : Nat) :
    fixedDigits b (n + 1) v = digitChar (v / b ^ n % b) :: fixedDigits b n v := rfl

@[simp] theorem fixedDigits_length (b n v : Nat) : (fixedDigits b n v).length = n := by
  induction n with
  | zero => rfl
  | succ n ih => rw [fixedDigits_succ, List.length_cons, ih]

/-- Every character written is that of a digit of the base. -/
theorem exists_digit_of_mem_fixedDigits {b n v : Nat} {c : Char} (hb : 0 < b) (h : c ∈ fixedDigits b n v) :
    ∃ d < b, c = digitChar d := by
  induction n with
  | zero => simp at h
  | succ n ih =>
    rw [fixedDigits_succ, List.mem_cons] at h
    rcases h with rfl | h
    · exact ⟨_, Nat.mod_lt _ hb, rfl⟩
    · exact ih h

theorem mem_decimalDigits_of_mem_fixedDigits {n v : Nat} {c : Char} (h : c ∈ fixedDigits 10 n v) :
    c ∈ decimalDigits := by
  obtain ⟨d, hd, rfl⟩ := exists_digit_of_mem_fixedDigits (by decide) h
  exact digitChar_mem_decimalDigits hd

theorem mem_upperHex_of_mem_fixedDigits {n v : Nat} {c : Char} (h : c ∈ fixedDigits 16 n v) :
    c ∈ ['0', '1', '2', '3', '4', '5', '6', '7', '8', '9', 'A', 'B', 'C', 'D', 'E', 'F'] := by
  obtain ⟨d, hd, rfl⟩ := exists_digit_of_mem_fixedDigits (by decide) h
  exact digitChar_mem_upperHex hd

/-- The digits read on from a value `a`, which they shift left by their number. -/
theorem foldl_fixedDigits {b : Nat} (hb : 0 < b) (hb' : b ≤ 16) (n v a : Nat) :
    (fixedDigits b n v).foldl (fun u c => b * u + (hexValue c).getD 0) a = a * b ^ n + v % b ^ n := by
  induction n generalizing a with
  | zero => simp [Nat.mod_one]
  | succ n ih =>
    have hdigit : hexValue (digitChar (v / b ^ n % b)) = some (v / b ^ n % b) :=
      hexValue_digitChar ((Nat.mod_lt _ hb).trans_le hb')
    rw [fixedDigits_succ, List.foldl_cons, ih, hdigit, Option.getD_some, Nat.mod_pow_succ]
    ring

/-- What is written on `n` digits reads back modulo `b ^ n`. -/
theorem readBase_fixedDigits {b : Nat} (hb : 0 < b) (hb' : b ≤ 16) (n v : Nat) :
    readBase b (fixedDigits b n v) = v % b ^ n := by
  rw [readBase, foldl_fixedDigits hb hb', Nat.zero_mul, Nat.zero_add]

/-- The leading digit of a number with `n + 1` digits is not 0. -/
theorem leadingDigit_ne_zero {n v : Nat} (hlow : 10 ^ n ≤ v) (hhigh : v < 10 ^ (n + 1)) :
    digitChar (v / 10 ^ n % 10) ≠ '0' := by
  have hlt : v / 10 ^ n < 10 := Nat.div_lt_of_lt_mul (by rwa [← Nat.pow_succ])
  have hpos : 0 < v / 10 ^ n := Nat.div_pos hlow (by positivity)
  intro hc
  have := eq_zero_of_digitChar_eq_zero (Nat.mod_lt _ (by decide)) hc
  omega

theorem decimalLength_pos (fuel n : Nat) : 0 < decimalLength fuel n := by
  cases fuel with
  | zero => exact Nat.one_pos
  | succ fuel => rw [decimalLength]; split <;> omega

/-- The digits counted are enough for the number. -/
theorem lt_ten_pow_decimalLength {fuel n : Nat} (h : n ≤ fuel) : n < 10 ^ decimalLength fuel n := by
  induction fuel generalizing n with
  | zero => rw [Nat.le_zero.1 h]; decide
  | succ fuel ih =>
    rw [decimalLength]
    split
    · omega
    · have := ih (n := n / 10) (by omega)
      rw [Nat.pow_succ]
      omega

/-- No more digits are counted than needed: where there are more than one, the number reaches the leading one. -/
theorem ten_pow_le_of_decimalLength_eq {fuel n k : Nat} (h : decimalLength fuel n = k + 2) : 10 ^ (k + 1) ≤ n := by
  induction fuel generalizing n k with
  | zero => rw [decimalLength] at h; omega
  | succ fuel ih =>
    rw [decimalLength] at h
    split at h
    · omega
    · cases k with
      | zero => omega
      | succ k =>
        have := ih (Nat.succ_injective h)
        rw [Nat.pow_succ]
        omega

theorem natText_ne_nil (n : Nat) : natText n ≠ [] := by
  rw [natText, ← List.length_pos_iff, fixedDigits_length]
  exact decimalLength_pos n n

theorem mem_decimalDigits_of_mem_natText {n : Nat} {c : Char} (h : c ∈ natText n) : c ∈ decimalDigits :=
  mem_decimalDigits_of_mem_fixedDigits h

@[simp] theorem readBase_natText (n : Nat) : readBase 10 (natText n) = n := by
  rw [natText, readBase_fixedDigits (by decide) (by decide), Nat.mod_eq_of_lt (lt_ten_pow_decimalLength le_rfl)]

/-- A decimal text begins with `0` only where it is the text of 0 (45_host_driver.md R91). -/
theorem natText_of_head_zero {n : Nat} (h : (natText n).head? = some '0') : natText n = ['0'] := by
  obtain ⟨k, hk⟩ : ∃ k, decimalLength n n = k + 1 := Nat.exists_eq_add_one.2 (decimalLength_pos n n)
  have htext : natText n = digitChar (n / 10 ^ k % 10) :: fixedDigits 10 k n := by rw [natText, hk, fixedDigits_succ]
  have hdigit : digitChar (n / 10 ^ k % 10) = '0' := by simpa [htext] using h
  cases k with
  | zero => rw [htext, hdigit, fixedDigits_zero]
  | succ k =>
    have hhigh : n < 10 ^ (k + 2) := hk ▸ lt_ten_pow_decimalLength le_rfl
    exact absurd hdigit (leadingDigit_ne_zero (ten_pow_le_of_decimalLength_eq hk) hhigh)

end Sys2Proof.Machine
end

section
/-! PROOF. The significand text: rounding to nearest with ties to even, the leading 1, and how near the rendered line
comes to the value (45_host_driver.md R89, R98). -/

namespace Sys2Proof.Machine

/-- The rounded quotient, times the divisor, is within half a divisor of the dividend, and even on a tie. -/
theorem roundHalfEven_bounds (a : Nat) {b : Nat} (hb : 0 < b) :
    2 * (roundHalfEven a b * b) ≤ 2 * a + b ∧ 2 * a ≤ 2 * (roundHalfEven a b * b) + b ∧
      (2 * (roundHalfEven a b * b) = 2 * a + b ∨ 2 * a = 2 * (roundHalfEven a b * b) + b →
        roundHalfEven a b % 2 = 0) := by
  have hdiv : a / b * b + a % b = a := Nat.div_add_mod' a b
  have hrem : a % b < b := Nat.mod_lt a hb
  have hup : (a / b + 1) * b = a / b * b + b := Nat.add_one_mul _ _
  simp only [roundHalfEven]
  split
  · omega
  · split
    · omega
    · split <;> omega

/-- A quotient rounds to within half a unit, and to an even integer on a tie (45_host_driver.md R89). -/
theorem roundHalfEven_nearest (a : Nat) {b : Nat} (hb : 0 < b) :
    2 * |(roundHalfEven a b : Rat) - a / b| ≤ 1 ∧
      (2 * |(roundHalfEven a b : Rat) - a / b| = 1 → roundHalfEven a b % 2 = 0) := by
  obtain ⟨hle, hge, htie⟩ := roundHalfEven_bounds a hb
  generalize roundHalfEven a b = n at *
  have hb' : (0 : Rat) < b := by exact_mod_cast hb
  have hle' : 2 * ((n : Rat) - a / b) ≤ 1 := by
    field_simp
    have : (2 * (n * b) : Rat) ≤ 2 * a + b := by exact_mod_cast hle
    linarith
  have hge' : -1 ≤ 2 * ((n : Rat) - a / b) := by
    field_simp
    have : (2 * a : Rat) ≤ 2 * (n * b) + b := by exact_mod_cast hge
    linarith
  have habs : 2 * |(n : Rat) - a / b| = |2 * ((n : Rat) - a / b)| := by rw [abs_mul, abs_two]
  rw [habs, abs_le, abs_eq zero_le_one]
  refine ⟨⟨hge', hle'⟩, fun h => htie (h.imp (fun h => ?_) (fun h => ?_))⟩
  · field_simp at h
    have : (2 * (n * b) : Rat) = 2 * a + b := by linarith
    exact_mod_cast this
  · field_simp at h
    have : (2 * a : Rat) = 2 * (n * b) + b := by linarith
    exact_mod_cast this

/-- A quotient up to an integer rounds up to that integer at most. -/
theorem roundHalfEven_le {a b k : Nat} (hb : 0 < b) (h : a ≤ k * b) : roundHalfEven a b ≤ k := by
  obtain ⟨hle, -, -⟩ := roundHalfEven_bounds a hb
  by_contra hlt
  have := Nat.mul_le_mul_right b (Nat.lt_of_not_le hlt)
  have := Nat.succ_mul k b
  omega

/-- A quotient from an integer on rounds down to that integer at least. -/
theorem le_roundHalfEven {a b k : Nat} (hb : 0 < b) (h : k * b ≤ a) : k ≤ roundHalfEven a b := by
  obtain ⟨-, hge, -⟩ := roundHalfEven_bounds a hb
  by_contra hlt
  have := Nat.mul_le_mul_right b (Nat.lt_of_not_le hlt)
  have := Nat.succ_mul (roundHalfEven a b) b
  omega

/-- The numerator is 1 and the operand's field, over `2^52` (40_mantissa_decoder.md R60). -/
theorem significandNumerator_respond (i : Instr) : significandNumerator (respond i).sig =
    2 ^ 52 + i.x.toNat % 2 ^ i.width.bits * 2 ^ (52 - i.width.bits) := by
  have hfield := fraction_lt i.width i.x.toNat
  rw [significandNumerator, respond_sig_toNat]
  omega

/-- The numerator over `2^52` is the exact significand (30_encoding.md R49). -/
theorem significandNumerator_respond_div (i : Instr) :
    (significandNumerator (respond i).sig : Rat) / 2 ^ 52 = normalDoubleValue (respond i).sig := by
  rw [normalDoubleValue_of_toNat (fraction_lt _ _) (respond_sig_toNat i), significandNumerator_respond]
  push_cast
  ring

/-- The rendered number is the exact significand rounded to nearest, ties to even (45_host_driver.md R89). -/
theorem significandScaled_nearest (places : Nat) (i : Instr) :
    2 * |(significandScaled places (respond i).sig : Rat) - normalDoubleValue (respond i).sig * 10 ^ places| ≤ 1 ∧
      (2 * |(significandScaled places (respond i).sig : Rat) - normalDoubleValue (respond i).sig * 10 ^ places| = 1 →
        significandScaled places (respond i).sig % 2 = 0) := by
  have hquot : ((significandNumerator (respond i).sig * 10 ^ places : Nat) : Rat) / (2 ^ 52 : Nat) =
      normalDoubleValue (respond i).sig * 10 ^ places := by
    rw [← significandNumerator_respond_div]
    push_cast
    ring
  rw [← hquot]
  exact roundHalfEven_nearest _ (Nat.two_pow_pos 52)

/-- The numerator stays below `2 * 2^52` by the least unit of its width. -/
theorem significandNumerator_respond_le (i : Instr) :
    significandNumerator (respond i).sig + 2 ^ (52 - i.width.bits) ≤ 2 * 2 ^ 52 := by
  have hfield : (i.x.toNat % 2 ^ i.width.bits + 1) * 2 ^ (52 - i.width.bits) ≤ 2 ^ 52 := by
    rw [← two_pow_bits_mul i.width]
    exact Nat.mul_le_mul_right _ (Nat.mod_lt _ (Nat.two_pow_pos _))
  rw [Nat.add_one_mul] at hfield
  rw [significandNumerator_respond]
  omega

/-- Half a unit of the last place on the significand is as much, times the power of two, on the product
(45_host_driver.md R98). -/
theorem abs_product_sub_le {s : Nat} {d q unit scale : Rat} (hunit : 0 < unit) (hscale : 0 < scale)
    (hnear : 2 * |unit + d - q * unit| ≤ 1) :
    |(-1) ^ s * (1 + d / unit) * scale - (-1) ^ s * q * scale| ≤ 1 / 2 / unit * scale := by
  have hdiff : (-1) ^ s * (1 + d / unit) * scale - (-1) ^ s * q * scale =
      (-1) ^ s * ((unit + d - q * unit) / unit * scale) := by
    field_simp
  rw [hdiff, abs_mul, abs_neg_one_pow, one_mul, abs_mul, abs_div, abs_of_pos hunit, abs_of_pos hscale]
  gcongr
  linarith

section LeadingDigit

variable {places : Nat} {i : Instr} (h : 2 ^ i.width.bits ≤ 10 ^ places)
include h

/-- With places enough for the width, rounding does not carry into the digit before the point. -/
theorem significandScaled_bounds : 10 ^ places ≤ significandScaled places (respond i).sig ∧
    significandScaled places (respond i).sig < 2 * 10 ^ places := by
  have hplaces : 0 < 10 ^ places := by positivity
  have hlow : 2 ^ 52 ≤ significandNumerator (respond i).sig := Nat.le_add_right _ _
  have hunit : 2 ^ 52 ≤ 2 ^ (52 - i.width.bits) * 10 ^ places := by
    rw [← two_pow_bits_mul i.width, Nat.mul_comm]
    exact Nat.mul_le_mul_left _ h
  have hhigh : significandNumerator (respond i).sig * 10 ^ places ≤ (2 * 10 ^ places - 1) * 2 ^ 52 := by
    have := Nat.mul_le_mul_right (10 ^ places) (significandNumerator_respond_le i)
    rw [Nat.add_mul] at this
    rw [Nat.sub_mul]
    omega
  refine ⟨le_roundHalfEven (Nat.two_pow_pos 52) ?_, ?_⟩
  · rw [Nat.mul_comm]
    exact Nat.mul_le_mul_right _ hlow
  · have := roundHalfEven_le (Nat.two_pow_pos 52) hhigh
    rw [significandScaled]
    omega

/-- The significand text is `1.` and the digits of the rendered number (45_host_driver.md R89). -/
theorem significandText_respond : significandText places (respond i).sig =
    '1' :: '.' :: fixedDigits 10 places (significandScaled places (respond i).sig) := by
  obtain ⟨hlow, hhigh⟩ := significandScaled_bounds h
  have hlead : significandScaled places (respond i).sig / 10 ^ places = 1 := Nat.div_eq_of_lt_le (by omega) (by omega)
  have hone : natText 1 = ['1'] := by decide
  rw [significandText, hlead, hone]
  rfl

/-- Those digits read back as what the rendered number has after the leading 1. -/
theorem ten_pow_add_readBase_significandScaled :
    10 ^ places + readBase 10 (fixedDigits 10 places (significandScaled places (respond i).sig)) =
      significandScaled places (respond i).sig := by
  obtain ⟨hlow, hhigh⟩ := significandScaled_bounds h
  rw [readBase_fixedDigits (by decide) (by decide), Nat.mod_eq_sub_mod hlow, Nat.mod_eq_of_lt (by omega)]
  omega

/-- The significand text as its digits after the point (45_host_driver.md R89). -/
theorem exists_significandText_digits : ∃ ds : Text, significandText places (respond i).sig = '1' :: '.' :: ds ∧
    ds.length = places ∧ (∀ c ∈ ds, c ∈ decimalDigits) ∧
    10 ^ places + readBase 10 ds = significandScaled places (respond i).sig :=
  ⟨_, significandText_respond h, fixedDigits_length _ _ _, fun _ => mem_decimalDigits_of_mem_fixedDigits,
    ten_pow_add_readBase_significandScaled h⟩

/-- The rendered line, and how near the number it gives is to the response's product (45_host_driver.md R98). -/
theorem exists_productText_digits : ∃ ds : Text,
    productText places (respond i) = (if (respond i).sign = 0#1 then '+' else '-') ::
      '1' :: '.' :: (ds ++ [' ', '*', ' ', '2', '^'] ++ intText (exponentOf (respond i))) ∧
    ds.length = places ∧ (∀ c ∈ ds, c ∈ decimalDigits) ∧
    |(-1) ^ (respond i).sign.toNat * (1 + (readBase 10 ds : Rat) / 10 ^ places) * 2 ^ exponentOf (respond i) -
      (respond i).value| ≤ 1 / 2 / 10 ^ places * 2 ^ exponentOf (respond i) := by
  obtain ⟨ds, htext, hlength, hdigits, hread⟩ := exists_significandText_digits h
  refine ⟨ds, ?_, hlength, hdigits, ?_⟩
  · rw [productText_eq, htext]
    rfl
  · obtain ⟨hnear, -⟩ := significandScaled_nearest places i
    rw [← hread, Nat.cast_add, Nat.cast_pow, Nat.cast_ofNat] at hnear
    rw [Response.value]
    exact abs_product_sub_le (by positivity) (by positivity) hnear

end LeadingDigit

/-- Eight places are enough for single (45_host_driver.md R89). -/
theorem places_w23 : 2 ^ Width.w23.bits ≤ 10 ^ 8 := by decide

/-- Seventeen places are enough for double (45_host_driver.md R89). -/
theorem places_w52 : 2 ^ Width.w52.bits ≤ 10 ^ 17 := by decide

end Sys2Proof.Machine
end

section
/-! PROOF. The reference host's run on its one argument, and what it tests and issues (45_host_driver.md R84, R86, R93,
R97). -/

namespace Sys2Proof.Machine

/-- The test of R84, on the pattern's exponent field (45_host_driver.md R84). -/
theorem singleFails_iff (r : ParseResult 32) : singleFails r = true ↔
    r.consumed = 0 ∨ r.rangeError = true ∨ r.value.extractLsb' 23 8 = 255#8 := by
  simp [singleFails, finiteSingle, singleExpField, or_assoc]

/-- The same for double (45_host_driver.md R84). -/
theorem doubleFails_iff (r : ParseResult 64) : doubleFails r = true ↔
    r.consumed = 0 ∨ r.rangeError = true ∨ r.value.extractLsb' 52 11 = 2047#11 := by
  simp [doubleFails, finiteDouble, doubleExpField, or_assoc]

/-- What the single phase adds to the host's two streams and its operations (45_host_driver.md R85). -/
theorem driverStep_parseSingle (p : DriverParams) (arg : Text) (issued : List Instr) (out err : Text) :
    driverStep p arg ⟨.parseSingle, issued, out, err⟩ =
      if singleFails (p.parseS arg) then ⟨.parseDouble, issued, out, err ++ badInput singleLabel arg⟩
      else ⟨.parseDouble, issued ++ [singleOperation (p.parseS arg).value],
        out ++ renderSingle (respond (singleOperation (p.parseS arg).value)), err⟩ := rfl

/-- What the double phase adds to them (45_host_driver.md R85). -/
theorem driverStep_parseDouble (p : DriverParams) (arg : Text) (issued : List Instr) (out err : Text) :
    driverStep p arg ⟨.parseDouble, issued, out, err⟩ =
      if doubleFails (p.parseD arg) then ⟨.done, issued, out, err ++ badInput doubleLabel arg⟩
      else ⟨.done, issued ++ [doubleOperation (p.parseD arg).value],
        out ++ renderDouble (respond (doubleOperation (p.parseD arg).value)), err⟩ := rfl

/-- The run is its single phase and then its double phase, each once (45_host_driver.md R81, R85). -/
theorem driverRun_eq (p : DriverParams) (arg : Text) : driverRun p arg =
    driverStep p arg (driverStep p arg ⟨.parseSingle, [], [], []⟩) := rfl

/-- With one argument the observation is the two streams of the run, with status 0 (45_host_driver.md R95). -/
theorem observe_one (p : DriverParams) (arg : Text) :
    observe p [arg] = ⟨(driverRun p arg).out, (driverRun p arg).err, 0⟩ := rfl

theorem issuedBy_one (p : DriverParams) (arg : Text) : issuedBy p [arg] = (driverRun p arg).issued := rfl

/-- With any other number of arguments there is the usage error, and no operation (45_host_driver.md R82). -/
theorem observe_of_length_ne_one {args : List Text} (p : DriverParams) (h : args.length ≠ 1) :
    observe p args = ⟨[], p.usageText, 1⟩ ∧ issuedBy p args = [] := by
  match args with
  | [] => exact ⟨rfl, rfl⟩
  | [_] => exact absurd rfl h
  | _ :: _ :: _ => exact ⟨rfl, rfl⟩

/-- The error text written out (45_host_driver.md R93). -/
theorem badInput_eq (label arg : Text) : badInput label arg = label ++ ['\n', '\t'] ++ (arg ++
    [' ', 'b', 'a', 'd', ' ', 'o', 'r', ' ', 'o', 'u', 't', ' ', 'o', 'f', ' ', 'r', 'a', 'n', 'g', 'e', '\n']) := by
  simp [badInput, labelled, badText]

/-- A line ends where the next one begins with its tab. -/
theorem append_newline_tab (a b : Text) : a ++ ['\n', '\t'] ++ b = a ++ ['\n'] ++ '\t' :: b := by
  simp only [List.append_assoc, List.cons_append, List.nil_append]

/-- The pattern the host issues for a single value is the one DECOMP.S reads (45_host_driver.md R86). -/
@[simp] theorem singlePattern_setWidth (v : Pattern32) : singlePattern (v.setWidth 64) = v := by
  apply BitVec.eq_of_toNat_eq
  rw [singlePattern_toNat, BitVec.toNat_setWidth]
  have := v.isLt
  omega

/-- `raw` answers the issued single pattern (45_host_driver.md R92). -/
theorem respond_singleOperation_raw_toNat (v : Pattern32) :
    (respond (singleOperation v)).raw.toNat = v.toNat := by
  rw [singleOperation, respond_decompS_raw_toNat, ← singlePattern_toNat, singlePattern_setWidth]

/-- `raw` answers the issued double pattern (45_host_driver.md R92). -/
theorem respond_doubleOperation_raw_toNat (v : Pattern64) :
    (respond (doubleOperation v)).raw.toNat = v.toNat := rfl

end Sys2Proof.Machine
end

section
/-! PROOF. A number of the grammar is scanned to its literal, whatever text after it does not carry it on
(45_host_driver.md R83). -/

namespace Sys2Proof.Machine

/-! ### The characters of a number -/

/-- The digits the scanner takes are those of the grammar, decimal or hex. -/
theorem digitTest_iff (hexMark : Option Char) (c : Char) :
    (if hexMark.isSome then isHex else isDecimal) c = true ↔
      c ∈ if hexMark.isSome then hexDigits else decimalDigits := by
  cases hexMark with
  | none => exact isDecimal_iff c
  | some x => exact isHex_iff c

theorem digitTest_eq_false_iff (hexMark : Option Char) (c : Char) :
    (if hexMark.isSome then isHex else isDecimal) c = false ↔
      c ∉ if hexMark.isSome then hexDigits else decimalDigits := by
  rw [← Bool.not_eq_true, digitTest_iff]

/-- The marks of an exponent the scanner takes are those of the grammar, decimal or hex. -/
theorem upper_eq_mark_iff (hexMark : Option Char) (c : Char) :
    upper c = (if hexMark.isSome then 'P' else 'E') ↔ c ∈ if hexMark.isSome then ['p', 'P'] else ['e', 'E'] := by
  cases hexMark with
  | none => simpa using upper_eq_E c
  | some x => simpa using upper_eq_P c

/-- A point is no digit. -/
theorem Spelling.point_not_mem_digits (n : Spelling) : '.' ∉ n.digits := by
  unfold Spelling.digits
  split <;> decide

/-- An exponent's mark is no digit and no point. -/
theorem Spelling.not_mem_digits_of_mem_marks {n : Spelling} {c : Char} (h : c ∈ n.marks) :
    c ∉ n.digits ∧ c ≠ '.' := by
  cases hx : n.hexMark with
  | none =>
    have hc : c = 'e' ∨ c = 'E' := by simpa [Spelling.marks, hx] using h
    rcases hc with rfl | rfl <;> simp [Spelling.digits, hx, decimalDigits]
  | some x =>
    have hc : c = 'p' ∨ c = 'P' := by simpa [Spelling.marks, hx] using h
    rcases hc with rfl | rfl <;> simp [Spelling.digits, hx, hexDigits, decimalDigits]

theorem Spelling.mem_hexDigits_of_mem_digits {n : Spelling} {c : Char} (h : c ∈ n.digits) : c ∈ hexDigits := by
  unfold Spelling.digits at h
  split at h
  · exact h
  · exact List.mem_append_left _ h

/-- A character that may begin a number after its sign is no whitespace and no sign. -/
theorem ne_of_mem_numberHeads {c : Char} (h : c ∈ '.' :: hexDigits) : isSpace c = false ∧ c ≠ '+' ∧ c ≠ '-' := by
  have hall : ('.' :: hexDigits).all (fun c => !isSpace c && c != '+' && c != '-') = true := by decide
  simpa [and_assoc] using List.all_eq_true.1 hall c h

/-- `0x` is taken off. -/
theorem afterHexPrefix_cons {x : Char} (hx : x = 'x' ∨ x = 'X') (v : Text) :
    afterHexPrefix ('0' :: x :: v) = some v := by
  simp [afterHexPrefix, (upper_eq_X x).2 hx]

/-- What was taken off was `0x`. -/
theorem afterHexPrefix_inversion {t v : Text} (h : afterHexPrefix t = some v) :
    ∃ x, (x = 'x' ∨ x = 'X') ∧ t = '0' :: x :: v := by
  unfold afterHexPrefix at h
  split at h
  · next x u =>
    split at h
    · next hx =>
      obtain rfl := Option.some.inj h
      exact ⟨x, (upper_eq_X x).1 (by simpa using hx), rfl⟩
    · cases h
  · cases h

/-! ### A spelling is scanned to its literal -/

/-- The text of a spelling from its first digit or point on, with the text after it. -/
def Spelling.body (n : Spelling) (rest : Text) : Text :=
  n.whole ++ (fractionText n.fraction ++ (exponentText n.exponent ++ rest))

theorem Spelling.text_append (n : Spelling) (rest : Text) :
    n.text ++ rest = n.space ++ (n.sign.toList ++ (hexPrefixText n.hexMark ++ n.body rest)) := by
  simp only [Spelling.text, Spelling.body, List.append_assoc]

section

variable {n : Spelling} {rest : Text} (hok : n.Ok)
include hok

/-- A number begins with a digit or with its point. -/
theorem Spelling.Ok.body_head {c : Char} {v : Text} (h : n.body rest = c :: v) : c = '.' ∨ c ∈ n.digits := by
  obtain ⟨-, -, -, hdigits, hne, -⟩ := hok
  unfold Spelling.body at h
  cases hw : n.whole with
  | cons d w =>
    rw [hw] at h hdigits
    obtain ⟨rfl, -⟩ := List.cons.inj h
    exact .inr (hdigits _ (by simp))
  | nil =>
    cases hf : n.fraction with
    | none => simp [hw, hf] at hne
    | some f =>
      rw [hw, hf] at h
      exact .inl (List.cons.inj h).1.symm

theorem Spelling.Ok.number_head {c : Char} {v : Text} (h : hexPrefixText n.hexMark ++ n.body rest = c :: v) :
    c ∈ '.' :: hexDigits := by
  cases hx : n.hexMark with
  | some x =>
    rw [hx] at h
    obtain ⟨rfl, -⟩ := List.cons.inj h
    decide
  | none =>
    rw [hx] at h
    rcases hok.body_head h with rfl | hc
    · exact List.mem_cons_self
    · exact List.mem_cons_of_mem _ (Spelling.mem_hexDigits_of_mem_digits hc)

/-- Where neither a point nor an exponent's mark stands after the digits, the number has neither part. -/
theorem Spelling.Ok.eq_none_of_tail {x : Char} {v : Text}
    (h : fractionText n.fraction ++ (exponentText n.exponent ++ rest) = x :: v) (hpoint : x ≠ '.')
    (hmark : x ∉ n.marks) : n.fraction = none ∧ n.exponent = none ∧ rest = x :: v := by
  cases hf : n.fraction with
  | some f =>
    rw [hf] at h
    exact absurd (List.cons.inj h).1.symm hpoint
  | none =>
    cases he : n.exponent with
    | some e =>
      rw [hf, he] at h
      exact absurd (hok.exponent e he).1 ((List.cons.inj h).1 ▸ hmark)
    | none =>
      rw [hf, he] at h
      exact ⟨rfl, rfl, h⟩

/-- A decimal number that begins the text `0x` is the number `0`, without point and exponent. -/
theorem Spelling.Ok.eq_zero_of_body (hx : n.hexMark = none) {x : Char} {v : Text} (hxX : x = 'x' ∨ x = 'X')
    (h : n.body rest = '0' :: x :: v) :
    n.whole = ['0'] ∧ n.fraction = none ∧ n.exponent = none ∧ rest = x :: v := by
  have hdecimal : n.digits = decimalDigits := by simp [Spelling.digits, hx]
  have hmarks : n.marks = ['e', 'E'] := by simp [Spelling.marks, hx]
  have hxdigit : x ∉ n.digits := by rw [hdecimal]; rcases hxX with rfl | rfl <;> decide
  have hxmark : x ∉ n.marks := by rw [hmarks]; rcases hxX with rfl | rfl <;> decide
  have hxpoint : x ≠ '.' := by rcases hxX with rfl | rfl <;> decide
  unfold Spelling.body at h
  match hw : n.whole with
  | [] =>
    rw [hw] at h
    obtain ⟨hf, -⟩ := hok.eq_none_of_tail h (by decide) (by rw [hmarks]; decide)
    exact absurd hok.nonempty (by simp [hw, hf])
  | [d] =>
    rw [hw] at h
    obtain ⟨rfl, htail⟩ := List.cons.inj h
    obtain ⟨hf, he, hrest⟩ := hok.eq_none_of_tail htail hxpoint hxmark
    exact ⟨rfl, hf, he, hrest⟩
  | d :: d' :: w =>
    rw [hw] at h
    obtain ⟨-, htail⟩ := List.cons.inj h
    obtain ⟨rfl, -⟩ := List.cons.inj htail
    exact absurd (hok.digits d' (by simp [hw])) hxdigit

end

section

variable {n : Spelling} {rest : Text} (hends : n.EndsBefore rest) (hok : n.Ok)
include hends hok

/-- The significand ends where the exponent, or what comes after the number, begins. -/
theorem Spelling.EndsBefore.afterSignificand {c : Char} {v : Text} (h : exponentText n.exponent ++ rest = c :: v) :
    c ∉ n.digits ∧ (n.fraction = none → c ≠ '.') := by
  cases he : n.exponent with
  | none =>
    rw [he] at h
    exact ⟨hends.noDigit he c v h, fun hf hc => hends.noPoint he hf v (hc ▸ h)⟩
  | some e =>
    rw [he] at h
    obtain ⟨rfl, -⟩ := List.cons.inj h
    obtain ⟨hmark, -⟩ := hok.exponent e he
    obtain ⟨hdigit, hpoint⟩ := Spelling.not_mem_digits_of_mem_marks hmark
    exact ⟨hdigit, fun _ => hpoint⟩

/-- The exponent is taken off. -/
theorem Spelling.EndsBefore.takeExponent_exponent : takeExponent (if n.hexMark.isSome then 'P' else 'E')
    (exponentText n.exponent ++ rest) = (exponentValue n.exponent, rest) := by
  cases he : n.exponent with
  | none =>
    exact takeExponent_eq_none fun m sg d v hrest hm =>
      hends.noExponent he m sg d v hrest ((upper_eq_mark_iff _ _).1 hm)
  | some e =>
    obtain ⟨hmark, hsign, hne, hdigits⟩ := hok.exponent e he
    exact takeExponent_append e ((upper_eq_mark_iff _ _).2 hmark) hsign hne hdigits (hends.afterExponent (by simp [he]))

/-- The significand and the exponent are taken off. -/
theorem Spelling.EndsBefore.scanUnsigned_body (negative : Bool) : scanUnsigned negative n.hexMark.isSome (n.body rest) =
    some (⟨negative, n.hexMark.isSome, n.whole, n.fraction.getD [], exponentValue n.exponent⟩, rest) := by
  have hsignificand := takeSignificand_append (digit := if n.hexMark.isSome then isHex else isDecimal)
    (u := exponentText n.exponent ++ rest) ((digitTest_eq_false_iff _ _).2 n.point_not_mem_digits)
    (fun c hc => (digitTest_iff _ _).2 (hok.digits c hc)) hok.nonempty
    (fun c v h => (digitTest_eq_false_iff _ _).2 (hends.afterSignificand hok h).1)
    (fun hf v h => (hends.afterSignificand hok h).2 hf rfl)
  rw [scanUnsigned, Spelling.body, hsignificand]
  simp only [hends.takeExponent_exponent hok]

/-- A decimal number before which `0x` can be taken off is the `0` of it, and no hex significand follows. -/
theorem Spelling.EndsBefore.takeSignificand_isHex (hx : n.hexMark = none) {v : Text}
    (hv : afterHexPrefix (n.body rest) = some v) : takeSignificand isHex v = none := by
  obtain ⟨x, hxX, hbody⟩ := afterHexPrefix_inversion hv
  obtain ⟨hw, hf, he, hrest⟩ := hok.eq_zero_of_body hx hxX hbody
  obtain ⟨hv₁, hv₂⟩ := hends.noHex he hf hx hw x v hrest hxX
  refine takeSignificand_eq_none (fun c u h => ?_) (fun c u h => ?_)
  · rw [← Bool.not_eq_true, isHex_iff]
    exact hv₁ c u h
  · rw [← Bool.not_eq_true, isHex_iff]
    exact hv₂ c u h

/-- A decimal number is read as no hex number. -/
theorem Spelling.EndsBefore.hexNumber_eq_none (hx : n.hexMark = none) (negative : Bool) :
    (afterHexPrefix (n.body rest)).bind (scanUnsigned negative true) = none := by
  cases hv : afterHexPrefix (n.body rest) with
  | none => rfl
  | some v =>
    rw [Option.bind_some, scanUnsigned, if_pos rfl, hends.takeSignificand_isHex hok hx hv]

/-- A number of the grammar is scanned to its literal, and the text after it is left (45_host_driver.md R83). -/
theorem Spelling.EndsBefore.scanNumber_text : scanNumber (n.text ++ rest) = some (n.literal, rest) := by
  have hspace : (n.text ++ rest).dropWhile isSpace = n.sign.toList ++ (hexPrefixText n.hexMark ++ n.body rest) := by
    rw [Spelling.text_append]
    refine (takeWhile_of_split (fun c hc => (isSpace_iff c).2 (hok.space c hc)) fun c u h => ?_).2
    cases hs : n.sign with
    | none =>
      rw [hs] at h
      exact (ne_of_mem_numberHeads (hok.number_head h)).1
    | some d =>
      rw [hs] at h
      obtain ⟨rfl, -⟩ := List.cons.inj h
      rcases hok.sign _ hs with rfl | rfl <;> decide
  have hsign : takeSign (n.sign.toList ++ (hexPrefixText n.hexMark ++ n.body rest)) =
      (n.sign == some '-', hexPrefixText n.hexMark ++ n.body rest) :=
    takeSign_append _ hok.sign fun c v h => (ne_of_mem_numberHeads (hok.number_head h)).2
  have hscan := hends.scanUnsigned_body hok (n.sign == some '-')
  rw [scanNumber, hspace, hsign]
  cases hx : n.hexMark with
  | some x =>
    rw [hx] at hscan
    simp only [hexPrefixText, List.cons_append, List.nil_append, afterHexPrefix_cons (hok.hexMark x hx)]
    rw [Option.bind_some, ← Option.isSome_some (a := x), hscan, Option.some_or, Spelling.literal, hx]
  | none =>
    rw [hx] at hscan
    simp only [hexPrefixText, List.nil_append, hends.hexNumber_eq_none hok hx, Option.none_or]
    rw [← Option.isSome_none, hscan, Spelling.literal, hx]

end

end Sys2Proof.Machine
end

section
/-! PROOF. What is scanned from a text was a number of the grammar (45_host_driver.md R83). -/

namespace Sys2Proof.Machine

/-- With no significand there is no digit to begin one. -/
theorem not_digit_of_takeSignificand_eq_none {digit : Char → Bool} (hp : digit '.' = false) {t : Text}
    (h : takeSignificand digit t = none) :
    (∀ c v, t = c :: v → digit c = false) ∧ ∀ c v, t = '.' :: c :: v → digit c = false := by
  constructor
  · rintro c v rfl
    by_contra hc
    rw [Bool.not_eq_false] at hc
    simp only [takeSignificand, List.takeWhile_cons_of_pos hc] at h
    split at h <;> simp at h
  · rintro c v rfl
    by_contra hc
    rw [Bool.not_eq_false] at hc
    simp [takeSignificand, hp, hc] at h

/-- With no hex number after it, `0x` carries no decimal number on. -/
theorem not_hexDigit_of_scanUnsigned_eq_none {negative : Bool} {v : Text} (h : scanUnsigned negative true v = none) :
    (∀ c u, v = c :: u → c ∉ hexDigits) ∧ ∀ c u, v = '.' :: c :: u → c ∉ hexDigits := by
  have hnone : takeSignificand isHex v = none := by
    unfold scanUnsigned at h
    split at h
    · assumption
    · cases h
  obtain ⟨hfirst, hsecond⟩ := not_digit_of_takeSignificand_eq_none (by decide) hnone
  refine ⟨fun c u hv => ?_, fun c u hv => ?_⟩
  · rw [← isHex_iff, hfirst c u hv]
    decide
  · rw [← isHex_iff, hsecond c u hv]
    decide

/-- A scanned significand and exponent, with what stands before them, were a number of the grammar. That a decimal
number is not the `0` of a hex one is the caller's to say. -/
theorem scanUnsigned_inversion {negative : Bool} {hexMark : Option Char} {t rest : Text} {l : Config.NumberLiteral}
    (h : scanUnsigned negative hexMark.isSome t = some (l, rest)) {space : Text} {sign : Option Char}
    (hspace : ∀ c ∈ space, isSpace c = true) (hsign : ∀ c, sign = some c → c = '+' ∨ c = '-')
    (hmark : ∀ c, hexMark = some c → c = 'x' ∨ c = 'X')
    (hhex : hexMark = none → (afterHexPrefix t).bind (scanUnsigned negative true) = none) :
    ∃ n : Spelling, n.space = space ∧ n.sign = sign ∧ n.hexMark = hexMark ∧ n.Ok ∧ n.EndsBefore rest ∧
      t = n.body rest := by
  unfold scanUnsigned at h
  split at h
  · cases h
  · next whole f u hsignificand =>
    obtain ⟨fraction, rfl, rfl, hdigits, hne, hu, hpoint⟩ := takeSignificand_inversion hsignificand
    obtain ⟨exponent, v, hscan, rfl, hexponent, hafter, hnone⟩ :=
      takeExponent_inversion (if hexMark.isSome then 'P' else 'E') u
    rw [hscan] at h
    obtain rfl : v = rest := (Prod.mk.inj (Option.some.inj h)).2
    have hafterSignificand : exponent = none → exponentText exponent ++ v = v := by
      rintro rfl
      rfl
    refine ⟨⟨space, sign, hexMark, whole, fraction, exponent⟩, rfl, rfl, rfl, ?_, ?_, rfl⟩
    · exact {
        space := fun c hc => (isSpace_iff c).1 (hspace c hc)
        sign := hsign
        hexMark := hmark
        digits := fun c hc => (digitTest_iff hexMark c).1 (hdigits c hc)
        nonempty := hne
        exponent := fun e he => (hexponent e he).imp_left (upper_eq_mark_iff hexMark _).1 }
    · exact {
        afterExponent := hafter
        noDigit := fun he c w hrest =>
          (digitTest_eq_false_iff hexMark c).1 (hu c w ((hafterSignificand he).trans hrest))
        noPoint := fun he hf w hrest => hpoint hf w ((hafterSignificand he).trans hrest)
        noExponent := fun he m sg d w hrest hm => hnone he m sg d w hrest ((upper_eq_mark_iff hexMark m).2 hm)
        noHex := fun he hf hx hw x w hrest hxX => by
          obtain rfl : exponent = none := he
          obtain rfl : fraction = none := hf
          obtain rfl : whole = ['0'] := hw
          have hbody : ['0'] ++ (fractionText none ++ (exponentText none ++ v)) = '0' :: x :: w :=
            congrArg ('0' :: ·) hrest
          have hnoHex := hhex hx
          rw [hbody, afterHexPrefix_cons hxX] at hnoHex
          exact not_hexDigit_of_scanUnsigned_eq_none hnoHex }

/-- What is scanned from a text was a number of the grammar that the text begins with (45_host_driver.md R83). -/
theorem scanNumber_inversion {t rest : Text} {l : Config.NumberLiteral} (h : scanNumber t = some (l, rest)) :
    ∃ n : Spelling, n.Ok ∧ n.EndsBefore rest ∧ t = n.text ++ rest := by
  obtain ⟨space, u, rfl, -, hdrop, hspace, -⟩ := split_of_takeWhile isSpace t
  obtain ⟨sign, v, rfl, hsign, htake⟩ := takeSign_cases u
  rw [scanNumber, hdrop, htake] at h
  cases hhex : (afterHexPrefix v).bind (scanUnsigned (sign == some '-') true) with
  | some r =>
    obtain ⟨w, hw, hscan⟩ := Option.bind_eq_some_iff.1 hhex
    obtain ⟨x, hx, rfl⟩ := afterHexPrefix_inversion hw
    obtain rfl : r = (l, rest) := by simpa [hhex] using h
    obtain ⟨n, rfl, rfl, hmark, hok, hends, rfl⟩ := scanUnsigned_inversion (hexMark := some x) hscan hspace hsign
      (by simpa using hx) (by simp)
    exact ⟨n, hok, hends, by rw [Spelling.text_append, hmark]; rfl⟩
  | none =>
    have hscan : scanUnsigned (sign == some '-') false v = some (l, rest) := by simpa [hhex] using h
    obtain ⟨n, rfl, rfl, hmark, hok, hends, rfl⟩ := scanUnsigned_inversion (hexMark := none) hscan hspace hsign
      (by simp) (fun _ => hhex)
    exact ⟨n, hok, hends, by rw [Spelling.text_append, hmark]; rfl⟩

end Sys2Proof.Machine
end

section
/-! PROOF. The two parses: what they consume, and when they signal a range error (45_host_driver.md R83, R84;
92_eei_decisions.md D24). -/

namespace Sys2Proof.Machine

/-- A parse of a number consumes exactly that number, and answers the open conversion of its literal (45_host_driver.md
R83). -/
theorem parse_text_append {width : Nat} (f : ParseFormat width) (p : Config.ParseParams width) (underflowIsError : Bool)
    {n : Spelling} {rest : Text} (hends : n.EndsBefore rest) (hok : n.Ok) :
    parse f p underflowIsError (n.text ++ rest) = ⟨(p.convert n.literal).value, n.text.length,
      (p.convert n.literal).overflow ||
        (underflowIsError && underflows f n.literal (p.convert n.literal).value)⟩ := by
  simp [parse, hends.scanNumber_text hok]

/-- A parse consumes no more than the text. -/
theorem parse_consumed_le {width : Nat} (f : ParseFormat width) (p : Config.ParseParams width) (underflowIsError : Bool)
    (t : Text) : (parse f p underflowIsError t).consumed ≤ t.length := by
  unfold parse
  split
  · exact Nat.sub_le _ _
  · exact Nat.min_le_right _ _

/-- Outside the grammar a parse consumes nothing, or answers a pattern made non-finite (log entry 19). -/
theorem parse_of_scanNumber_eq_none {width : Nat} (f : ParseFormat width) (p : Config.ParseParams width)
    (underflowIsError : Bool) {t : Text} (h : scanNumber t = none) :
    (parse f p underflowIsError t).consumed = 0 ∨
      ∃ v, (parse f p underflowIsError t).value = f.nonFinite v := by
  simp only [parse, h]
  split
  · next hzero => exact .inl (by simp [hzero])
  · exact .inr ⟨_, rfl⟩

/-- What a parse consumed with a finite value was a number of the grammar. -/
theorem exists_scanNumber_of_parse {width : Nat} {f : ParseFormat width} {p : Config.ParseParams width}
    {underflowIsError : Bool} {t : Text} (hne : (parse f p underflowIsError t).consumed ≠ 0)
    (hfinite : ∀ v, (parse f p underflowIsError t).value ≠ f.nonFinite v) :
    ∃ l rest, scanNumber t = some (l, rest) := by
  cases h : scanNumber t with
  | some r => exact ⟨_, _, rfl⟩
  | none =>
    rcases parse_of_scanNumber_eq_none f p underflowIsError h with hzero | ⟨v, hv⟩
    · exact absurd hzero hne
    · exact absurd hv (hfinite v)

/-- A literal is not zero where some digit of it is not. -/
theorem nonzeroLiteral_literal_iff (n : Spelling) :
    nonzeroLiteral n.literal = true ↔ ∃ c ∈ n.whole ++ n.fraction.getD [], c ≠ '0' := by
  simp only [nonzeroLiteral, Spelling.literal, List.any_eq_true, bne_iff_ne]

/-- Underflow at single precision (92_eei_decisions.md D24). -/
theorem underflows_single_iff (l : Config.NumberLiteral) (v : Pattern32) : underflows singleFormat l v = true ↔
    v.extractLsb' 23 8 = 0#8 ∧ (v.extractLsb' 0 23 ≠ 0#23 ∨ nonzeroLiteral l = true) := by
  simp [underflows, singleFormat, singleExpField, singleMantField]

/-- Underflow at double precision (92_eei_decisions.md D24). -/
theorem underflows_double_iff (l : Config.NumberLiteral) (v : Pattern64) : underflows doubleFormat l v = true ↔
    v.extractLsb' 52 11 = 0#11 ∧ (v.extractLsb' 0 52 ≠ 0#52 ∨ nonzeroLiteral l = true) := by
  simp [underflows, doubleFormat, doubleExpField, doubleMantField]

end Sys2Proof.Machine
end

section
/-! PROOF. The statements of 45_host_driver.md. -/

namespace Sys2Proof.Machine

/-- Settles O41: the two shapes of an argument list. -/
theorem argumentCountDecidesTheStatus : Obligations.ArgumentCountDecidesTheStatus := by
  refine fun p args => ⟨observe_of_length_ne_one p, fun h => ?_⟩
  obtain ⟨arg, rfl⟩ := List.length_eq_one_iff.1 h
  rfl

/-- Settles O48: a rendering is its label, its hex line and its product line. -/
theorem renderingHasItsThreeLines : Obligations.RenderingHasItsThreeLines := by
  refine ⟨fun r => ?_, fun r => ?_⟩
  · rw [renderSingle_eq, productText_eq, rendering_regroup]
    rfl
  · rw [renderDouble_eq, productText_eq, rendering_regroup]
    rfl

/-- Settles O42: each phase's test decides what it adds, independently of the other's. -/
theorem invocationGivesTheObservation : Obligations.InvocationGivesTheObservation := by
  intro p arg vS vD badS badD rS rD bad errS errD
  have htestS : singleFails (p.parseS arg) = true ↔ badS := singleFails_iff _
  have htestD : doubleFails (p.parseD arg) = true ↔ badD := doubleFails_iff _
  have herrS : badInput singleLabel arg = errS := badInput_eq _ _
  have herrD : badInput doubleLabel arg = errD := badInput_eq _ _
  rw [observe_one, issuedBy_one, driverRun_eq, driverStep_parseSingle]
  refine ⟨fun hS hD => ?_, fun hS hD => ?_, fun hS hD => ?_, fun hS hD => ?_,
    fun args h => (observe_of_length_ne_one p h).1⟩
  · rw [if_pos (htestS.2 hS), driverStep_parseDouble, if_pos (htestD.2 hD), herrS, herrD]
    exact ⟨rfl, rfl⟩
  · rw [if_neg (mt htestS.1 hS), driverStep_parseDouble, if_pos (htestD.2 hD), herrD]
    exact ⟨rfl, rfl⟩
  · rw [if_pos (htestS.2 hS), driverStep_parseDouble, if_neg (mt htestD.1 hD), herrS]
    exact ⟨rfl, rfl⟩
  · rw [if_neg (mt htestS.1 hS), driverStep_parseDouble, if_neg (mt htestD.1 hD)]
    exact ⟨rfl, rfl⟩

/-- Settles O43: fixed digits read back, and `raw` is the issued pattern. -/
theorem hexTextIsTheExactPattern : Obligations.HexTextIsTheExactPattern := by
  refine ⟨fun n v hv => ⟨fixedDigits 16 n v, rfl, fixedDigits_length 16 n v, ?_,
    fun _ => mem_upperHex_of_mem_fixedDigits⟩, fun v => ?_, fun v => ?_⟩
  · rw [readBase_fixedDigits (by decide) le_rfl, Nat.mod_eq_of_lt hv]
  · rw [renderSingle_eq, respond_singleOperation_raw_toNat]
    exact ⟨_, append_newline_tab _ _⟩
  · rw [renderDouble_eq, respond_doubleOperation_raw_toNat]
    exact ⟨_, append_newline_tab _ _⟩

/-- Settles O44: the rounded quotient is nearest, and eight (seventeen) places are enough for the width. -/
theorem significandTextIsRoundedToNearestEven : Obligations.SignificandTextIsRoundedToNearestEven :=
  ⟨significandScaled_nearest, fun x => ⟨exists_significandText_digits (i := .decompS x) places_w23,
    exists_significandText_digits (i := .decompD x) places_w52⟩⟩

/-- Settles O45: the rendered line reconstructs the response's product, which is the pattern's value. -/
theorem renderedLineReconstructsTheValue : Obligations.RenderedLineReconstructsTheValue := by
  refine ⟨fun v _ => ?_, fun v _ => ?_⟩
  · have hvalue : (respond (singleOperation v)).value = normalSingleValue v := by
      rw [singleOperation, respond_decompS_value, singlePattern_setWidth]
    rw [← hvalue]
    exact exists_productText_digits (i := singleOperation v) places_w23
  · rw [← respond_decompD_value v]
    exact exists_productText_digits (i := .decompD v) places_w52

/-- Settles O46: a decimal text's digits, its value and its leading digit. -/
theorem exponentTextIsPlainDecimal : Obligations.ExponentTextIsPlainDecimal := by
  refine fun n => ⟨natText_ne_nil n, fun _ => mem_decimalDigits_of_mem_natText, readBase_natText n,
    natText_of_head_zero, ?_⟩
  rw [← Int.negSucc_eq]
  rfl

/-- Settles O49: a spelling is scanned to its literal, which the open conversion is given. -/
theorem parseReadsANumberOfTheSyntax : Obligations.ParseReadsANumberOfTheSyntax := by
  intro p n rest hok hends cS cD nonzero
  have hS : p.parseS (n.text ++ rest) = _ := parse_text_append singleFormat p.single p.underflowIsError hends hok
  have hD : p.parseD (n.text ++ rest) = _ := parse_text_append doubleFormat p.double p.underflowIsError hends hok
  rw [hS, hD]
  refine ⟨rfl, rfl, ?_, rfl, rfl, ?_⟩
  · rw [Bool.or_eq_true, Bool.and_eq_true, underflows_single_iff, nonzeroLiteral_literal_iff]
  · rw [Bool.or_eq_true, Bool.and_eq_true, underflows_double_iff, nonzeroLiteral_literal_iff]

/-- Settles O50: outside the grammar nothing passes, and inside it both parses consume the number scanned. -/
theorem onlyNumbersOfTheSyntaxPass : Obligations.OnlyNumbersOfTheSyntaxPass := by
  intro p t
  refine ⟨parse_consumed_le _ _ _ t, parse_consumed_le _ _ _ t, fun h => ?_⟩
  obtain ⟨l, rest, hscan⟩ : ∃ l rest, scanNumber t = some (l, rest) := by
    rcases h with ⟨hne, hfinite⟩ | ⟨hne, hfinite⟩
    · exact exists_scanNumber_of_parse hne fun v hv => hfinite (hv ▸ singleFormat_nonFinite v)
    · exact exists_scanNumber_of_parse hne fun v hv => hfinite (hv ▸ doubleFormat_nonFinite v)
  obtain ⟨n, hok, hends, rfl⟩ := scanNumber_inversion hscan
  refine ⟨n, rest, hok, hends, rfl, ?_, ?_⟩
  · exact congrArg ParseResult.consumed (parse_text_append _ _ _ hends hok)
  · exact congrArg ParseResult.consumed (parse_text_append _ _ _ hends hok)

end Sys2Proof.Machine
end

section
/-! PROOF. The statement of 60_exceptions.md. -/

namespace Sys2Proof.Machine

/-- The one stop of a step is a read of ports that hold no value (10_state.md R25); every other step goes on. -/
theorem step_stops_only_on_early_read (s : State) :
    (∃ t, step s = .next t) ∨
    (s.response = none ∧ (∃ es, s.events = .read :: es) ∧ step s = .fault .responseNeverWritten) := by
  rcases step_inversion s with ⟨-, h⟩ | ⟨_, _, -, -, h⟩ | ⟨_, _, -, -, h⟩ | ⟨_, -, h⟩ | ⟨es, he, hr, h⟩ |
    ⟨_, _, -, -, h⟩ | ⟨_, -, h⟩
  case inr.inr.inr.inr.inl => exact .inr ⟨hr, ⟨es, he⟩, h⟩
  all_goals exact .inl ⟨_, h⟩

/-- A step faults on an early read, with the fault of R25, and on nothing else. -/
theorem step_eq_fault_iff (s : State) (f : Fault) : step s = .fault f ↔
    f = .responseNeverWritten ∧ s.response = none ∧ ∃ es, s.events = .read :: es := by
  constructor
  · intro hf
    rcases step_stops_only_on_early_read s with ⟨t, hnext⟩ | ⟨hr, he, hfault⟩
    · simp [hnext] at hf
    · rw [hfault] at hf
      cases hf
      exact ⟨rfl, hr, he⟩
  · rintro ⟨rfl, hr, es, he⟩
    exact step_read_none he hr

/-- No step refuses: the four operations all have a meaning. -/
theorem step_ne_refused (s : State) (q : Refusal) : step s ≠ .refused q := by
  rcases step_stops_only_on_early_read s with ⟨t, hnext⟩ | ⟨-, -, hfault⟩
  · simp [hnext]
  · simp [hfault]

/-- Settles O31: `exec` delivers its response from every state, and the stops of a step are those of its inversion. -/
theorem onlyAnEarlyReadStopsTheMachine : Obligations.OnlyAnEarlyReadStopsTheMachine :=
  ⟨fun i s => ⟨_, exec_eq i s, rfl⟩, step_eq_fault_iff, step_ne_refused⟩

end Sys2Proof.Machine
end

section
/-! PROOF. An operation's word placed as the next request, and the hold of a request that comes during an operation
(30_encoding.md R38, 70_reset_and_hazards.md R115, R117). -/

namespace Sys2Proof

/-- Reading a joined word apart gives the request back (30_encoding.md R38). -/
@[simp] theorem Request.ofWord_toWord (r : Request) : Request.ofWord r.toWord = r := by
  have hlt : r.x.toNat < 2 ^ 64 := r.x.isLt
  have hop : (Request.ofWord r.toWord).op = r.op := by
    rw [← BitVec.toNat_inj, Request.ofWord_op_toNat, Request.toWord_toNat]
    omega
  have hx : (Request.ofWord r.toWord).x = r.x := by
    rw [← BitVec.toNat_inj, Request.ofWord_x_toNat, Request.toWord_toNat]
    omega
  exact congrArg₂ Request.mk hop hx

end Sys2Proof

namespace Sys2Proof.Machine

/-- Placing an operation's word presents the operation's request. -/
theorem State.withFetchWord_encodeWord (s : State) (i : Instr) {nbits : Nat} (hn : 66 ≤ nbits) :
    s.withFetchWord nbits (encodeWord i).toNat = s.present (encode i) := by
  have hw : (encodeWord i).toNat < 2 ^ 66 := (encodeWord i).isLt
  have hwide : (2 : Nat) ^ 66 ≤ 2 ^ nbits := Nat.pow_le_pow_right (by decide) hn
  rw [s.withFetchWord_of_lt hw (hw.trans_le hwide), BitVec.ofNat_toNat, BitVec.setWidth_eq, encodeWord,
    Request.ofWord_toWord]

/-- A request that comes during an operation is not taken: the operation completes with its own response, and what comes
next stays as it is (70_reset_and_hazards.md R117). -/
theorem State.runInLoop.step_holds {s : State} {i : Instr} {r : Request} {es : List Event} (h : s.runInLoop)
    (hr : s.running = some i) (he : s.events = .request r :: es ∨ s.events = .accept r :: es) :
    step s = .next (s.deliver (respond i)) := by
  have hbusy : s.inProgress = true := s.inProgress_eq_true_iff.mpr ⟨i, hr⟩
  rw [step_completes (.inr ⟨hbusy, r, es, he⟩), h.completeRun hr]

end Sys2Proof.Machine
end

section
/-! PROOF. The statements of 70_reset_and_hazards.md. -/

namespace Sys2Proof.Machine

/-- Settles O36: the hold's step delivers and leaves the block idle with the request first, which is then taken. -/
theorem requestHoldsWhileAnOperationIsInProgress : Obligations.RequestHoldsWhileAnOperationIsInProgress := by
  intro s i r es hinv hr
  refine ⟨fun he => ?_, fun he => ?_⟩
  · exact ⟨_, _, hinv.inLoop.step_holds hr (.inl he), rfl, rfl, rfl,
      step_request_delivers (s := s.deliver (respond i)) rfl he, rfl, rfl⟩
  · refine ⟨_, _, hinv.inLoop.step_holds hr (.inr he), rfl, rfl, rfl,
      step_accept (s := s.deliver (respond i)) rfl he, ?_, rfl⟩
    rw [State.acceptOp_events, State.took_events, State.deliver_events, he, List.tail_cons]

/-- Settles O39: the run of the remaining bit steps and the delivery, from any point of the loop. -/
theorem everyOperationCompletes : Obligations.EveryOperationCompletes :=
  fun _ _ _ hinv hr he => ⟨_, hinv.inLoop.runSteps_delivers hr he, rfl, rfl, rfl⟩

/-- Settles O32: the rule of a reset event, after which a read finds the ports without a value. -/
theorem resetEmptiesTheBlock : Obligations.ResetEmptiesTheBlock :=
  ⟨State.reset_running, State.reset_response,
    fun _ _ he => ⟨_, step_reset he, rfl, rfl, step_read_none (es := []) rfl rfl⟩⟩

/-- Settles O33: the placed word is presented as the operation's request, which an idle block performs. -/
theorem everyOperationMayComeFirstAfterReset : Obligations.EveryOperationMayComeFirstAfterReset := by
  intro i
  rw [State.reset.withFetchWord_encodeWord i (by decide)]
  refine ⟨_, step_request_delivers (State.present_running _ _) (State.present_events _ _), ?_, rfl, State.reset_events⟩
  rw [State.deliver_response, decode_encode]

end Sys2Proof.Machine
end

section
/-! PROOF. What packing a response and reading its fields back give (30_encoding.md R46). -/

namespace Sys2Proof.Machine

/-- The packed response is its fields side by side, `raw` uppermost. -/
theorem Response.pack_eq (r : Response) : r.pack = r.raw ++ r.sign ++ r.exp ++ r.mant ++ r.sig := rfl

/-- A field is found at its place once the fields below it are skipped. -/
@[simp] theorem Response.unpack_pack (r : Response) : Response.unpack r.pack = r := by
  have hraw : r.pack.extractLsb' 129 64 = r.raw := by
    rw [r.pack_eq, BitVec.extractLsb'_append_eq_of_le (by decide), BitVec.extractLsb'_append_eq_of_le (by decide),
      BitVec.extractLsb'_append_eq_of_le (by decide), BitVec.extractLsb'_append_eq_left]
  have hsign : r.pack.extractLsb' 128 1 = r.sign := by
    rw [r.pack_eq, BitVec.extractLsb'_append_eq_of_le (by decide), BitVec.extractLsb'_append_eq_of_le (by decide),
      BitVec.extractLsb'_append_eq_of_le (by decide), BitVec.extractLsb'_append_eq_right]
  have hexp : r.pack.extractLsb' 116 12 = r.exp := by
    rw [r.pack_eq, BitVec.extractLsb'_append_eq_of_le (by decide), BitVec.extractLsb'_append_eq_of_le (by decide),
      BitVec.extractLsb'_append_eq_right]
  have hmant : r.pack.extractLsb' 64 52 = r.mant := by
    rw [r.pack_eq, BitVec.extractLsb'_append_eq_of_le (by decide), BitVec.extractLsb'_append_eq_right]
  have hsig : r.pack.extractLsb' 0 64 = r.sig := BitVec.extractLsb'_append_eq_right
  simp only [Response.unpack, hraw, hsign, hexp, hmant, hsig]

/-- The fields of a word, side by side, are the word: each joint closes up. -/
@[simp] theorem Response.pack_unpack (w : BitVec 193) : (Response.unpack w).pack = w :=
  calc (Response.unpack w).pack
    _ = w.extractLsb' 129 64 ++ w.extractLsb' 128 1 ++ w.extractLsb' 116 12 ++ w.extractLsb' 64 52 ++
          w.extractLsb' 0 64 := rfl
    _ = w.extractLsb' 128 65 ++ w.extractLsb' 116 12 ++ w.extractLsb' 64 52 ++ w.extractLsb' 0 64 := by
      rw [BitVec.extractLsb'_append_extractLsb'_eq_extractLsb' (by decide)]
    _ = w.extractLsb' 116 77 ++ w.extractLsb' 64 52 ++ w.extractLsb' 0 64 := by
      rw [BitVec.extractLsb'_append_extractLsb'_eq_extractLsb' (by decide)]
    _ = w.extractLsb' 64 129 ++ w.extractLsb' 0 64 := by
      rw [BitVec.extractLsb'_append_extractLsb'_eq_extractLsb' (by decide)]
    _ = w.extractLsb' 0 193 := BitVec.extractLsb'_append_extractLsb'_eq_extractLsb' (by decide)
    _ = w := BitVec.extractLsb'_eq_self

end Sys2Proof.Machine
end

section
/-! PROOF. Request words of operations, as words and as table numbers (30_encoding.md R38, R40). -/

namespace Sys2Proof

/-- Every operation is what its request word decodes to. -/
@[simp] theorem decodeWord_encodeWord (i : Instr) : decodeWord (encodeWord i) = i := by
  rw [decodeWord, encodeWord, Request.ofWord_toWord, decode_encode]

/-- A table wide enough for a request holds an operation's word as its number. -/
theorem decodeTableWord_encodeWord (i : Instr) {nbits : Nat} (hn : 66 ≤ nbits) :
    decodeTableWord nbits (encodeWord i).toNat = some i := by
  have hw : (encodeWord i).toNat < 2 ^ 66 := (encodeWord i).isLt
  have hwide : (2 : Nat) ^ 66 ≤ 2 ^ nbits := Nat.pow_le_pow_right (by decide) hn
  rw [decodeTableWord_of_lt hw (hw.trans_le hwide), BitVec.ofNat_toNat, BitVec.setWidth_eq, decodeWord_encodeWord]

/-- A number made of an operation's code and operand, `op` uppermost, is decoded to that operation. -/
theorem decodeTableWord_of_eq {nbits w : Nat} {i : Instr} (hn : 66 ≤ nbits)
    (hw : w = i.op.toNat * 2 ^ 64 + i.x.toNat) : decodeTableWord nbits w = some i := by
  have hword : (encodeWord i).toNat = w := (Request.toWord_toNat _).trans hw.symm
  rw [← hword, decodeTableWord_encodeWord i hn]

/-- A number wider than a request is refused (log entry 15). -/
theorem decodeTableWord_of_le {nbits w : Nat} (hw : 2 ^ 66 ≤ w) (hn : w < 2 ^ nbits) :
    decodeTableWord nbits w = none := by
  have htable : tableWord nbits w = w := Nat.mod_eq_of_lt hn
  have hbad : ¬ requestWordOk w = true := by simpa [requestWordOk] using hw
  rw [decodeTableWord, decodeNat, htable, if_neg hbad]

end Sys2Proof
end

section
/-! PROOF. The invariant: each operation of the state keeps it (10_state.md R22, R25). -/

namespace Sys2Proof.Machine

/-- With nothing in progress no working value is constrained. -/
theorem State.runInLoop_of_idle {s : State} (h : s.running = none) : s.runInLoop := by
  intro i hi
  rw [h] at hi
  cases hi

/-- An operation's response delivered leaves the block idle with that response on the ports. -/
theorem State.deliver_respond_inv (i : Instr) (s : State) : (s.deliver (respond i)).Inv where
  inLoop := State.runInLoop_of_idle (s.deliver_running _)
  genuine _ hr := ⟨i, (Option.some.inj hr).symm⟩

/-- A block that was reset is idle and its ports hold no value. -/
theorem State.resetBlock_inv (s : State) : s.resetBlock.Inv where
  inLoop := State.runInLoop_of_idle s.resetBlock_running
  genuine _ hr := nomatch hr

/-- Taking an event touches neither the block nor its ports. -/
theorem State.Inv.took {s : State} (h : s.Inv) : s.took.Inv := ⟨h.inLoop, h.genuine⟩

/-- An operation that starts stands at its loop's head; the ports hold what they held. -/
theorem State.Inv.acceptOp {s : State} (h : s.Inv) (i : Instr) : (s.acceptOp i).Inv :=
  ⟨s.acceptOp_runInLoop i, h.genuine⟩

/-- Completing the operation in progress delivers its own response. -/
theorem State.Inv.completeRun {s : State} (h : s.Inv) : s.completeRun.Inv := by
  cases hr : s.running with
  | none => rwa [State.completeRun_of_idle hr]
  | some i =>
    rw [h.inLoop.completeRun hr]
    exact s.deliver_respond_inv i

/-- A pass of the loop body before the loop's end leaves the operation inside its loop, one place on
(40_mantissa_decoder.md R59). -/
theorem State.Inv.decoderStep {s : State} {i : Instr} (h : s.Inv) (hr : s.running = some i)
    (hi : s.decoder.i < i.width.bits) : State.Inv { s with decoder := Decoder.step i.width s.decoder } where
  inLoop j hj := by
    obtain rfl : i = j := Option.some.inj (hr.symm.trans hj)
    obtain ⟨-, hat⟩ := h.inLoop i hr
    exact ⟨hi, hat.step hi⟩
  genuine := h.genuine

/-- A bit step idles, moves on inside the loop, or delivers at its end. -/
theorem State.Inv.bitStep {s : State} (h : s.Inv) : s.bitStep.Inv := by
  rcases s.bitStep_cases with ⟨-, hs⟩ | ⟨i, hr, hi, hs⟩ | ⟨i, hr, hge, hs⟩
  · rwa [hs]
  · rw [hs]
    exact h.decoderStep hr hi
  · obtain ⟨hle, hat⟩ := h.inLoop i hr
    rw [le_antisymm hle hge] at hat
    rw [hs, serialResponse_of_standsAt hat]
    exact s.deliver_respond_inv i

/-- Whatever a step does, the state it answers keeps the invariant. -/
theorem State.Inv.step {s t : State} (h : s.Inv) (hstep : step s = .next t) : t.Inv := by
  rcases step_inversion s with ⟨-, hs⟩ | ⟨r, _, -, -, hs⟩ | ⟨r, _, -, -, hs⟩ | ⟨_, -, hs⟩ |
    ⟨_, -, -, hs⟩ | ⟨_, _, -, -, hs⟩ | ⟨_, -, hs⟩ <;> rw [hs] at hstep <;> cases hstep
  · exact h.completeRun
  · exact s.took.deliver_respond_inv (decode r)
  · exact h.took.acceptOp (decode r)
  · exact h.took.bitStep
  · exact h.took
  · exact s.took.resetBlock_inv

end Sys2Proof.Machine
end

section
/-! PROOF. Script lines read back: the comment, the two words, the mnemonic and the operand (30_encoding.md R53). -/

namespace Sys2Proof.Machine

/-! ### The characters of a script line -/

theorem isInk_and_ne_semicolon_of_mem_mnemonicText {i : Instr} {c : Char} (h : c ∈ mnemonicText i) :
    isInk c = true ∧ c ≠ ';' := by
  have hall : (mnemonicText i).all (fun c => isInk c && c != ';') = true := by cases i <;> rfl
  simpa using List.all_eq_true.mp hall c h

theorem isInk_and_ne_semicolon_of_mem_hexText {n v : Nat} {c : Char} (h : c ∈ hexText n v) :
    isInk c = true ∧ c ≠ ';' := by
  have hall : ['0', '1', '2', '3', '4', '5', '6', '7', '8', '9', 'A', 'B', 'C', 'D', 'E', 'F'].all
      (fun c => isInk c && c != ';') = true := rfl
  rw [hexText, List.mem_cons, List.mem_cons] at h
  rcases h with rfl | rfl | h
  · decide
  · decide
  · simpa using List.all_eq_true.mp hall c (mem_upperHex_of_mem_fixedDigits h)

theorem semicolon_not_mem_scriptLine (i : Instr) : ';' ∉ scriptLine i := by
  intro h
  rw [scriptLine, List.mem_append, List.mem_cons] at h
  rcases h with h | h | h
  · exact (isInk_and_ne_semicolon_of_mem_mnemonicText h).2 rfl
  · exact absurd h (by decide)
  · exact (isInk_and_ne_semicolon_of_mem_hexText h).2 rfl

/-! ### The comment and the words -/

/-- A comment is dropped with its `;`. -/
theorem dropComment_append {t : Text} (h : ';' ∉ t) (comment : Text) : dropComment (t ++ ';' :: comment) = t := by
  rw [dropComment, List.takeWhile_append_of_pos]
  · simp
  · exact fun _ hc => bne_iff_ne.mpr (ne_of_mem_of_not_mem hc h)

/-- A text with no `;` has no comment to drop. -/
theorem dropComment_of_not_mem {t : Text} (h : ';' ∉ t) : dropComment t = t :=
  List.takeWhile_eq_self_iff.mpr fun _ hc => bne_iff_ne.mpr (ne_of_mem_of_not_mem hc h)

/-- A word at a text's head is all that is read up to the next blank. -/
theorem takeWhile_isInk_append {word rest : Text} (hw : ∀ c ∈ word, isInk c = true)
    (hrest : ∀ c ∈ rest.head?, isBlank c = true) :
    (word ++ rest).takeWhile isInk = word ∧ (word ++ rest).dropWhile isInk = rest := by
  rw [List.takeWhile_append_of_pos hw, List.dropWhile_append_of_pos hw]
  cases rest with
  | nil => simp
  | cons c cs => simp [isInk, hrest c rfl]

/-- No blank is skipped before a word. -/
theorem dropWhile_isBlank_append {word : Text} (hne : word ≠ []) (hw : ∀ c ∈ word, isInk c = true) (rest : Text) :
    (word ++ rest).dropWhile isBlank = word ++ rest := by
  cases word with
  | nil => contradiction
  | cons c cs =>
    have hc : isBlank c = false := by simpa [isInk] using hw c List.mem_cons_self
    simp [hc]

/-- A line of two words parted by a blank, with blanks after them, has those two words. -/
theorem wordsOf_append {m o blanks : Text} (hm : m ≠ []) (hmInk : ∀ c ∈ m, isInk c = true) (ho : o ≠ [])
    (hoInk : ∀ c ∈ o, isInk c = true) (hblank : ∀ c ∈ blanks, isBlank c = true) :
    wordsOf (m ++ ' ' :: (o ++ blanks)) = some (m, o) := by
  obtain ⟨hmTake, hmDrop⟩ := takeWhile_isInk_append (rest := ' ' :: (o ++ blanks)) hmInk (by simp [isBlank])
  obtain ⟨hoTake, hoDrop⟩ := takeWhile_isInk_append (rest := blanks) hoInk fun _ hc =>
    hblank _ (List.mem_of_mem_head? hc)
  have hskip : (' ' :: (o ++ blanks)).dropWhile isBlank = o ++ blanks := dropWhile_isBlank_append ho hoInk blanks
  rw [wordsOf, dropWhile_isBlank_append hm hmInk, hmDrop, hskip, hmTake, hoTake, hoDrop]
  exact if_pos (List.all_eq_true.mpr hblank)

/-! ### The mnemonic and the operand -/

/-- The mnemonics as written name their operations. -/
theorem operationNamed_mnemonicText (i : Instr) : operationNamed (mnemonicText i) i.x = some i := by
  cases i <;> rfl

/-- A digit's character read: the value is shifted by one place and takes the digit in. -/
theorem readDigits_digitChar {d : Nat} (h : d < 16) (afterDigit : Bool) (v k : Nat) (cs : Text) :
    readDigits afterDigit v k (digitChar d :: cs) = readDigits true (16 * v + d) (k + 1) cs := by
  have hmark : (digitChar d == '_') = false := by
    revert d
    decide
  simp [readDigits, hmark, hexValue_digitChar h]

/-- Digits written on `n` places are read on from a value, which they shift left by `n` places. -/
theorem readDigits_fixedDigits (n v : Nat) {afterDigit : Bool} (h : n = 0 → afterDigit = true) (a k : Nat) :
    readDigits afterDigit a k (fixedDigits 16 n v) = some (a * 16 ^ n + v % 16 ^ n, k + n) := by
  induction n generalizing afterDigit a k with
  | zero => simp [readDigits, h rfl, Nat.mod_one]
  | succ n ih =>
    rw [fixedDigits_succ, readDigits_digitChar (Nat.mod_lt _ (by decide)), ih fun _ => rfl, Nat.mod_pow_succ]
    congr 2
    · ring
    · omega

/-- An operand written with all its digits reads back. -/
theorem readOperand_hexText (x : Word64) : readOperand (hexText 16 x.toNat) = some x := by
  have hx : x.toNat % 16 ^ 16 = x.toNat := Nat.mod_eq_of_lt x.isLt
  have hread : readDigits false 0 0 (fixedDigits 16 16 x.toNat) = some (x.toNat, 16) := by
    rw [readDigits_fixedDigits 16 x.toNat (by decide), hx, Nat.zero_mul, Nat.zero_add, Nat.zero_add]
  rw [hexText, readOperand, hread]
  simp

/-! ### The line -/

/-- A line that is an operation's script line and blanks, once its comment is dropped, assembles to the operation. -/
theorem assembleLine_of_dropComment {t blanks : Text} {i : Instr} (ht : dropComment t = scriptLine i ++ blanks)
    (hblank : ∀ c ∈ blanks, isBlank c = true) : assembleLine t = .ok i := by
  have hm : mnemonicText i ≠ [] := by cases i <;> exact List.cons_ne_nil _ _
  have ho : hexText 16 i.x.toNat ≠ [] := List.cons_ne_nil _ _
  have hwords : wordsOf (dropComment t) = some (mnemonicText i, hexText 16 i.x.toNat) := by
    rw [ht, scriptLine, List.append_assoc, List.cons_append]
    exact wordsOf_append hm (fun _ hc => (isInk_and_ne_semicolon_of_mem_mnemonicText hc).1) ho
      (fun _ hc => (isInk_and_ne_semicolon_of_mem_hexText hc).1) hblank
  simp [assembleLine, hwords, hm, ho, readOperand_hexText, operationNamed_mnemonicText]

end Sys2Proof.Machine
end

section
/-! PROOF. The statements on request words, the packed response and script lines (30_encoding.md R38, R40, R46, R53) and on
the invariant (10_state.md R22, R25). -/

namespace Sys2Proof.Machine

/-- Settles O1: a word and its request, and a request and its operation, determine each other. -/
theorem decodeAndEncodeAgree : Obligations.DecodeAndEncodeAgree :=
  ⟨fun i => ⟨decodeWord_encodeWord i, decodeTableWord_encodeWord i (by decide)⟩, encodeWord_decodeWord⟩

/-- Settles O35: by the inversion of a step, each of whose outcomes keeps the invariant. -/
theorem stepKeepsTheInvariant : Obligations.StepKeepsTheInvariant :=
  fun _ _ h hstep => h.step hstep

/-- Settles O29: packing and unpacking undo each other, and unpacking reads each field at its place. -/
theorem packedResponseHasItsFieldsInPlace : Obligations.PackedResponseHasItsFieldsInPlace := by
  intro r
  have h := r.unpack_pack
  exact ⟨congrArg Response.raw h, congrArg Response.sign h, congrArg Response.exp h, congrArg Response.mant h,
    congrArg Response.sig h, Response.pack_unpack⟩

/-- Settles O47: the line has no `;`, so that a comment is dropped whole and leaves the line, with its blank if any. -/
theorem scriptLinesAssembleToTheirOperation : Obligations.ScriptLinesAssembleToTheirOperation := by
  intro i comment
  have hline : ';' ∉ scriptLine i := semicolon_not_mem_scriptLine i
  have hspaced : ';' ∉ scriptLine i ++ [' '] := by simpa using hline
  have halone : dropComment (scriptLine i) = scriptLine i ++ [] := by
    rw [dropComment_of_not_mem hline, List.append_nil]
  have hblank : dropComment (scriptLine i ++ ' ' :: ';' :: comment) = scriptLine i ++ [' '] := by
    rw [← dropComment_append hspaced comment, List.append_assoc, List.singleton_append]
  have hdirect : dropComment (scriptLine i ++ ';' :: comment) = scriptLine i ++ [] := by
    rw [dropComment_append hline, List.append_nil]
  refine ⟨assembleLine_of_dropComment halone (by simp), assembleLine_of_dropComment hblank (by simp [isBlank]), ?_⟩
  rw [assembleRequest, assembleLine_of_dropComment hdirect (by simp)]
  rfl

/-- Settles O5: the four numbers are the words of their operations, and 2^66 is wider than a request. -/
theorem wordsOfTheTableDecode : Obligations.WordsOfTheTableDecode :=
  ⟨decodeTableWord_of_eq (i := .decompS _) (by decide) rfl, decodeTableWord_of_eq (i := .decompD _) (by decide) rfl,
    decodeTableWord_of_eq (i := .mdec23 _) (by decide) rfl, decodeTableWord_of_eq (i := .mdec52 _) (by decide) rfl,
    decodeTableWord_of_le (by decide) (by decide)⟩

/-- Settles O34: at reset nothing is in progress and the ports hold no value. -/
theorem invariantHoldsAtReset : Obligations.InvariantHoldsAtReset where
  inLoop := State.runInLoop_of_idle State.reset_running
  genuine _ hr := nomatch hr

end Sys2Proof.Machine
end
